-- ==== Sys2Proof/Word.lean ====
section
/-! DEFINITION. The words of the block: bytes, nibbles, the 216-bit frame port, and the seven
values of the `STATE` register (R9, R22, R27). Only names of types stand here. -/

namespace Sys2Proof

/-- A byte: an unsigned 8-bit value, bit 7 the most significant (R9). -/
abbrev Byte := BitVec 8

/-- Four bits of a byte (R9). -/
abbrev Nibble := BitVec 4

/-- The raw frame as it stands on the port `frame_in[215:0]`: 27 bytes, raw byte 0 in the eight
least significant bits (R27, R60). -/
abbrev Frame := BitVec 216

/-- The payload `P[k]`, `k` in 0 to 25, as a reading function (R63).
It is an argument of the checks and of the extractors, never a field of the state. -/
abbrev Payload := Nat → Byte

/-- The seven values of `STATE` (R22). Code 7 is reserved and has no value here (R108). -/
inductive SeqState where
  | idle
  | start
  | parityChecked
  | checksumChecked
  | decoded
  | parityFailed
  | checksumFailed
  deriving DecidableEq, Repr

end Sys2Proof
end

