-- ==== Sys2Proof/Config.lean ====
section
/-! DEFINITION. What is fixed for the hardware (R7), the values on its input ports (R27), and the one
free value of the model: what the host drives at an edge for which the state holds no input.
The open parameter `FLOAT_RENDER` (R8) is an argument of `WeatherReading.rendered`, not a constant. -/

namespace Sys2Proof

/-- `FRAME_LEN`: bytes in a raw frame (R7). -/
abbrev Config.frameLen : Nat := 27

/-- `N`: bytes in the payload (R7). -/
abbrev Config.payloadLen : Nat := 26

/-- `HALF`: parity columns, and the distance between the two bytes of a column (R7). -/
abbrev Config.half : Nat := 13

/-- `SYNC_BYTE`: what the host requires of raw byte 0 (R7, R212). -/
abbrev Config.syncByte : Byte := 0xD4#8

/-- `PAR_MASK`: the required exclusive or of the two bytes of a column (R7). -/
abbrev Config.parMask : Byte := 0xFF#8

/-- `CK_IDX`: payload index of the declared checksum (R7). -/
abbrev Config.ckIdx : Nat := 13

/-- `CK_LO`: first payload index of the counted range (R7). -/
abbrev Config.ckLo : Nat := 14

/-- `CK_HI`: last payload index of the counted range, inclusive (R7). -/
abbrev Config.ckHi : Nat := 25

/-- `CK_MAX`: the largest possible count (R7). -/
abbrev Config.ckMax : Nat := 96

/-- `BATT_MASK`: the bit of payload byte 25 that means battery low (R7). -/
abbrev Config.battMask : Byte := 0x80#8

/-- `SIGN_MASK`: the bits of payload byte 25 whose being nonzero negates the temperature (R7). -/
abbrev Config.signMask : Byte := 0x0F#8

/-- `DIR_STEP`: one unit of the wind direction nibble, in degrees (R7). -/
abbrev Config.dirStep : ℚ := 45 / 2

/-- `TENTH`: the scale of temperature, gust, average and rain (R7). -/
abbrev Config.tenth : ℚ := 1 / 10

/-- The values on the input ports at one rising edge of `clk` (R27). -/
structure Inputs where
  /-- `rst`: synchronous reset, active high. -/
  rst : Bool
  /-- `start`: request to begin a call. -/
  start : Bool
  /-- `frame_in`: the raw frame. -/
  frameIn : Frame
  deriving DecidableEq, Repr, Inhabited

/-- FREE VALUE (assumption 2). What the host drives on the input ports at the edge numbered `n`, where
the state lists no input for that edge. It has no body: nothing can be proved of its value. -/
opaque Config.hostInputs : Nat → Inputs

end Sys2Proof
end

