-- ==== Sys2Proof/Syntax.lean ====
section
/-! DEFINITION. The operations of the block, one constructor for each row of spec/opcode_table.json.
The operand fields are the bits of the selecting word `{rst, start, state[2:0]}` that the row leaves
open (R98), the 216-bit operand of `LOAD`, the constant payload index of a primitive (R102), the
operands of `BCD3` and `POPCNT8`, and the raw frame of the pseudo-operation `DECODE` (R103). -/

namespace Sys2Proof

/-- One constructor for each row of the opcode table. -/
inductive Instr where
  /-- `RESET`; `start` and `state` are the bits it does not look at (R260). -/
  | reset (start : Bool) (state : BitVec 3)
  /-- `LOAD`, the row "from Idle" (R181). -/
  | loadIdle (frame : Frame)
  /-- `LOAD`, the row "from a terminal state"; `src` is that state (R181). -/
  | loadTerminal (src : SeqState) (frame : Frame)
  /-- `HOLD`, the row "in Idle" (R183). -/
  | holdIdle
  /-- `HOLD`, the row "in a terminal state"; `src` is that state (R183). -/
  | holdTerminal (src : SeqState)
  /-- `PARCHK`; `start` is the bit it ignores (R184). -/
  | parchk (start : Bool)
  /-- `CKSUM`; `start` is the bit it ignores (R186). -/
  | cksum (start : Bool)
  /-- `EXTRACT`; `start` is the bit it ignores (R190). -/
  | extract (start : Bool)
  /-- `XSID` (R141). -/
  | xsid
  /-- `XWDIR` (R143). -/
  | xwdir
  /-- `XGUST` (R144). -/
  | xgust
  /-- `XBATT` (R145). -/
  | xbatt
  /-- `XTEMP` (R146, R162, R163). -/
  | xtemp
  /-- `XHUM` (R164). -/
  | xhum
  /-- `XWAVG` (R165). -/
  | xwavg
  /-- `XRAIN` (R168). -/
  | xrain
  /-- `BYTE(k)` (R147). -/
  | byte (k : Fin 26)
  /-- `LONIB(k)` (R148). -/
  | lonib (k : Fin 26)
  /-- `HINIB(k)` (R149). -/
  | hinib (k : Fin 26)
  /-- `BIT7(k)` (R150). -/
  | bit7 (k : Fin 26)
  /-- `BCD3(d0, d1, d2)`: units, tens, hundreds (R161). -/
  | bcd3 (d0 d1 d2 : Nibble)
  /-- `POPCNT8(v)` (R134). -/
  | popcnt8 (v : Byte)
  /-- `DECODE`: the whole call on a raw frame (R103, R194). -/
  | decode (frame : Frame)
  deriving DecidableEq, Repr

end Sys2Proof
end

