-- ==== Sys2Proof/WellFormed.lean ====
section
/-! DEFINITION. Which terms of `Instr` stand for a row's word. Three checks: the source state of the
two "terminal state" rows is a terminal state (R98), and the raw frame of `DECODE` begins with the
synchronisation byte that the row's encoding fixes (opcode table, R212). -/

namespace Sys2Proof

/-- The terminal states (R25, glossary of 00_scope.md). -/
def SeqState.isTerminal : SeqState → Bool
  | .idle => false
  | .start => false
  | .parityChecked => false
  | .checksumChecked => false
  | .decoded => true
  | .parityFailed => true
  | .checksumFailed => true

/-- The check of one instruction. Every other constructor's fields are exact by their types. -/
def Instr.wellFormed : Instr → Bool
  | .reset _ _ => true
  | .loadIdle _ => true
  | .loadTerminal src _ => src.isTerminal
  | .holdIdle => true
  | .holdTerminal src => src.isTerminal
  | .parchk _ => true
  | .cksum _ => true
  | .extract _ => true
  | .xsid => true
  | .xwdir => true
  | .xgust => true
  | .xbatt => true
  | .xtemp => true
  | .xhum => true
  | .xwavg => true
  | .xrain => true
  | .byte _ => true
  | .lonib _ => true
  | .hinib _ => true
  | .bit7 _ => true
  | .bcd3 _ _ _ => true
  | .popcnt8 _ => true
  | .decode frame => frame.extractLsb' 0 8 == Config.syncByte

/-- An instruction is well-formed where the check holds. -/
abbrev Instr.WellFormed (i : Instr) : Prop := i.wellFormed = true

end Sys2Proof
end

