-- ==== Sys2Proof/Decode.lean ====
section
/-! DEFINITION. The code formats of the block and their decoders and encoders: `STATE3` (R95), the bytes
of `FRAME27` (R60, R90), the selecting word `{rst, start, state[2:0]}` of a sequencer step (R98), and
the frame pattern of `DECODE` (R99). A step's word is laid out as one byte, its upper three bits zero,
followed for `LOAD` by the 27 bytes of its operand `frame_in` (assumption 3). The extractors and the
primitives have no word: "they are not selected by anything" (R98). -/

namespace Sys2Proof

/-! ### The codes of `STATE` -/

/-- `STATE3`: the code of a state (R95). -/
def SeqState.code : SeqState → BitVec 3
  | .idle => 0#3
  | .start => 1#3
  | .parityChecked => 2#3
  | .checksumChecked => 3#3
  | .decoded => 4#3
  | .parityFailed => 5#3
  | .checksumFailed => 6#3

/-- The state of a code; code 7 is reserved (R95, R108). -/
def SeqState.ofCode? (c : BitVec 3) : Option SeqState :=
  if c = 0#3 then some .idle
  else if c = 1#3 then some .start
  else if c = 2#3 then some .parityChecked
  else if c = 3#3 then some .checksumChecked
  else if c = 4#3 then some .decoded
  else if c = 5#3 then some .parityFailed
  else if c = 6#3 then some .checksumFailed
  else none

/-! ### The bytes of a frame -/

/-- Raw byte `i` of a frame: `frame_in[8*i+7 : 8*i]` (R27, R60). -/
def Frame.byte (f : Frame) (i : Nat) : Byte := f.extractLsb' (8 * i) 8

/-- The 27 raw bytes in order, raw byte 0 first (R60). -/
def Frame.bytes (f : Frame) : List Byte := (List.range Config.frameLen).map (Frame.byte f)

/-- The frame whose raw bytes are the listed ones, raw byte 0 first (R60). -/
def Frame.ofBytes (bs : List Byte) : Frame :=
  bs.foldr (fun b acc => acc <<< 8 ||| b.setWidth 216) 0#216

/-! ### The word of a sequencer step -/

/-- The byte that carries `{rst, start, state[2:0]}`: bit 4 is `rst`, bit 3 `start`, bits 2..0 the
state's code, bits 7..5 zero (R98). -/
def selByte (rst start : Bool) (code : BitVec 3) : Byte :=
  (BitVec.ofBool rst).setWidth 8 <<< 4 ||| (BitVec.ofBool start).setWidth 8 <<< 3 |||
    code.setWidth 8

/-- Why a decoder rejects a list of bytes. -/
inductive Reject where
  /-- There is no byte to read. -/
  | noWord
  /-- Bits 7..5 of a step's byte are not zero: the selecting word has five bits (R98). -/
  | reservedBits
  /-- `rst` is 0 and the code of `STATE` is 7, which no rule describes (R108). -/
  | reservedState
  /-- Fewer than 27 frame bytes follow (R213). -/
  | shortFrame
  /-- A frame offered as `DECODE` does not begin with the synchronisation byte (R107, R212). -/
  | wrongSync
  deriving DecidableEq, Repr

/-- The 27 bytes of a frame operand, and the rest of the list. -/
def takeFrame (bs : List Byte) : Except Reject (Frame × List Byte) :=
  if bs.length < Config.frameLen then .error .shortFrame
  else .ok (Frame.ofBytes (bs.take Config.frameLen), bs.drop Config.frameLen)

/-- `LOAD`'s operand `frame_in` follows the selecting word. -/
def withFrame (mk : Frame → Instr) (bs : List Byte) : Except Reject (Instr × List Byte) :=
  match takeFrame bs with
  | .ok (f, rest) => .ok (mk f, rest)
  | .error r => .error r

/-- The operation map: which row the five bits select (R98, R180). -/
def decodeWord (rst start : Bool) (code : BitVec 3) (rest : List Byte) :
    Except Reject (Instr × List Byte) :=
  if rst then .ok (.reset start code, rest)
  else match SeqState.ofCode? code with
    | none => .error .reservedState
    | some .idle => if start then withFrame .loadIdle rest else .ok (.holdIdle, rest)
    | some .start => .ok (.parchk start, rest)
    | some .parityChecked => .ok (.cksum start, rest)
    | some .checksumChecked => .ok (.extract start, rest)
    | some .decoded =>
      if start then withFrame (.loadTerminal .decoded) rest else .ok (.holdTerminal .decoded, rest)
    | some .parityFailed =>
      if start then withFrame (.loadTerminal .parityFailed) rest
      else .ok (.holdTerminal .parityFailed, rest)
    | some .checksumFailed =>
      if start then withFrame (.loadTerminal .checksumFailed) rest
      else .ok (.holdTerminal .checksumFailed, rest)

/-- The decoder of a sequencer step: total on any bytes, rejecting by name. -/
def decodeBytes : List Byte → Except Reject (Instr × List Byte)
  | [] => .error .noWord
  | b :: rest =>
    if b.extractLsb' 5 3 = 0#3 then
      decodeWord (b.getLsbD 4) (b.getLsbD 3) (b.extractLsb' 0 3) rest
    else .error .reservedBits

/-! ### The frame pattern of `DECODE` -/

/-- The decoder of `DECODE`'s row, whose encoding is a raw frame beginning with `11010100`. -/
def decodeFrame27 (bs : List Byte) : Except Reject (Instr × List Byte) :=
  match takeFrame bs with
  | .ok (f, rest) =>
    if Frame.byte f 0 = Config.syncByte then .ok (.decode f, rest) else .error .wrongSync
  | .error r => .error r

/-! ### Both formats, and the encoder -/

/-- The two formats in which a row of the table has a word of its own. -/
inductive Format where
  /-- `STEP`: the selecting word of a sequencer step. -/
  | step
  /-- `pseudo-operation over FRAME27`: the raw frame of `DECODE`. -/
  | frame27
  deriving DecidableEq, Repr

/-- The decoder of a format. -/
def decodeAs : Format → List Byte → Except Reject (Instr × List Byte)
  | .step, bs => decodeBytes bs
  | .frame27, bs => decodeFrame27 bs

/-- The format and the bytes of an instruction. The extractors and the primitives have none: "they are
not selected by anything: they are combinational functions that always compute" (R98). -/
def encode : Instr → Option (Format × List Byte)
  | .reset start state => some (.step, [selByte true start state])
  | .loadIdle frame => some (.step, selByte false true 0#3 :: Frame.bytes frame)
  | .loadTerminal src frame => some (.step, selByte false true src.code :: Frame.bytes frame)
  | .holdIdle => some (.step, [selByte false false 0#3])
  | .holdTerminal src => some (.step, [selByte false false src.code])
  | .parchk start => some (.step, [selByte false start 1#3])
  | .cksum start => some (.step, [selByte false start 2#3])
  | .extract start => some (.step, [selByte false start 3#3])
  | .xsid => none
  | .xwdir => none
  | .xgust => none
  | .xbatt => none
  | .xtemp => none
  | .xhum => none
  | .xwavg => none
  | .xrain => none
  | .byte _ => none
  | .lonib _ => none
  | .hinib _ => none
  | .bit7 _ => none
  | .bcd3 _ _ _ => none
  | .popcnt8 _ => none
  | .decode frame => some (.frame27, Frame.bytes frame)

/-! ### The operation map as the table gives it, to hold the decoder against -/

/-- One `STEP` row of the opcode table: the bits it tests, their values, its mnemonic (R98). -/
structure StepRow where
  mask : BitVec 5
  value : BitVec 5
  mnemonic : String
  deriving DecidableEq, Repr

/-- The eight `STEP` rows (R98). -/
def stepRows : List StepRow :=
  [ ⟨0b10000#5, 0b10000#5, "RESET"⟩,
    ⟨0b11111#5, 0b01000#5, "LOAD"⟩,
    ⟨0b11100#5, 0b01100#5, "LOAD"⟩,
    ⟨0b11111#5, 0b00000#5, "HOLD"⟩,
    ⟨0b11100#5, 0b00100#5, "HOLD"⟩,
    ⟨0b10111#5, 0b00001#5, "PARCHK"⟩,
    ⟨0b10111#5, 0b00010#5, "CKSUM"⟩,
    ⟨0b10111#5, 0b00011#5, "EXTRACT"⟩ ]

/-- A row matches a selecting word where the tested bits have the row's values (R98). -/
def StepRow.hits (r : StepRow) (w : BitVec 5) : Bool := w &&& r.mask == r.value

/-- The mnemonics of the rows that match a selecting word. -/
def rowsOf (w : BitVec 5) : List String := (stepRows.filter (StepRow.hits · w)).map (·.mnemonic)

/-- The mnemonic of an instruction, as the opcode table spells it. -/
def Instr.mnemonic : Instr → String
  | .reset _ _ => "RESET"
  | .loadIdle _ => "LOAD"
  | .loadTerminal _ _ => "LOAD"
  | .holdIdle => "HOLD"
  | .holdTerminal _ => "HOLD"
  | .parchk _ => "PARCHK"
  | .cksum _ => "CKSUM"
  | .extract _ => "EXTRACT"
  | .xsid => "XSID"
  | .xwdir => "XWDIR"
  | .xgust => "XGUST"
  | .xbatt => "XBATT"
  | .xtemp => "XTEMP"
  | .xhum => "XHUM"
  | .xwavg => "XWAVG"
  | .xrain => "XRAIN"
  | .byte _ => "BYTE"
  | .lonib _ => "LONIB"
  | .hinib _ => "HINIB"
  | .bit7 _ => "BIT7"
  | .bcd3 _ _ _ => "BCD3"
  | .popcnt8 _ => "POPCNT8"
  | .decode _ => "DECODE"

/-! ### A table word, for the host -/

/-- The instruction read from a word whose bits are numbered as the opcode table numbers them: bit 0 is
the least significant bit of the first byte, and every bit from `nbits` on is 0. A word of 216 bits is
`DECODE`'s raw frame; every other word is a step's byte and then the bytes of `frame_in`. -/
def decodeTableWord (nbits w : Nat) : Option Instr :=
  let v := w % 2 ^ nbits
  let read :=
    if nbits = 216 then decodeAs .frame27 (Frame.bytes (BitVec.ofNat 216 v))
    else decodeAs .step (BitVec.ofNat 8 v :: Frame.bytes (BitVec.ofNat 216 (v / 256)))
  match read with
  | .ok (i, _) => some i
  | .error _ => none

end Sys2Proof
end

