-- ==== Sys2Proof/Machine/State.lean ====
section
/-! DEFINITION. The state as plain data. `Block` holds exactly the members of rule R47; `State` adds the
three fields that are the model's own and not the block's: the inputs the host has lined up, the number
of the coming edge, and the combinational output last looked at (assumptions 1, 2, 4). -/

namespace Sys2Proof.Machine

/-- The frame buffer `FB[0..26]` as (raw index, byte) pairs, indices rising, no pair whose byte is what
an unlisted index reads as (R21, R45). -/
structure Memory where
  cells : List Host.Cell
  deriving DecidableEq, Repr

/-- What an unlisted frame buffer byte reads as: the reset value, 0 in every byte (R21, R260). -/
abbrev Memory.unlisted : Byte := 0#8

/-- The nine reading registers, which hold the `WeatherReading` (R33). -/
structure WeatherReading where
  /-- `sensor_id[7:0]` (R35). -/
  sensorId : BitVec 8
  /-- `temp_mag[10:0]` (R36). -/
  tempMag : BitVec 11
  /-- `temp_neg` (R37). -/
  tempNeg : Bool
  /-- `humidity[7:0]` (R39). -/
  humidity : BitVec 8
  /-- `wind_dir_raw[3:0]` (R40). -/
  windDirRaw : BitVec 4
  /-- `wind_gust_tenths[11:0]` (R41). -/
  windGustTenths : BitVec 12
  /-- `wind_avg_tenths[10:0]` (R42). -/
  windAvgTenths : BitVec 11
  /-- `rain_tenths[10:0]` (R43). -/
  rainTenths : BitVec 11
  /-- `battery_ok` (R44). -/
  batteryOk : Bool
  deriving DecidableEq, Repr

/-- All nine reading registers at 0 (R33). -/
def WeatherReading.zero : WeatherReading :=
  { sensorId := 0#8, tempMag := 0#11, tempNeg := false, humidity := 0#8, windDirRaw := 0#4,
    windGustTenths := 0#12, windAvgTenths := 0#11, rainTenths := 0#11, batteryOk := false }

/-- The state of the block: the members of rule R47 and no others. -/
structure Block where
  /-- `FB[0..26]` (R21). -/
  fb : Memory
  /-- `STATE` (R22). -/
  seq : SeqState
  /-- `ERR_COL[3:0]` (R30). -/
  errCol : BitVec 4
  /-- `CK_EXPECTED[7:0]` (R31). -/
  ckExpected : BitVec 8
  /-- `CK_ACTUAL[7:0]` (R32). -/
  ckActual : BitVec 8
  /-- The nine reading registers (R33). -/
  reading : WeatherReading
  deriving DecidableEq, Repr

/-- Every element at its reset value (R47, R260). -/
def Block.atReset : Block :=
  { fb := ⟨[]⟩, seq := .idle, errCol := 0#4, ckExpected := 0#8, ckActual := 0#8,
    reading := WeatherReading.zero }

/-- A combinational output of a sub-block, or a primitive's result: what an extractor or a primitive
computes (R140, R160, R102). None of them is a register of the block. -/
inductive Signal where
  /-- `x_sensor_id[7:0]` (R141). -/
  | xSensorId (v : BitVec 8)
  /-- `x_wind_dir_raw[3:0]` (R143). -/
  | xWindDirRaw (v : BitVec 4)
  /-- `x_wind_gust[11:0]` (R144). -/
  | xWindGust (v : BitVec 12)
  /-- `x_battery_ok` (R145). -/
  | xBatteryOk (v : Bool)
  /-- `x_temp_mag[10:0]`, `x_temp_neg` and `x_temp_tenths[11:0]` (R162, R146, R163). -/
  | xTemp (mag : BitVec 11) (neg : Bool) (tenths : BitVec 12)
  /-- `x_humidity[7:0]` (R164). -/
  | xHumidity (v : BitVec 8)
  /-- `x_wind_avg[10:0]` (R165). -/
  | xWindAvg (v : BitVec 11)
  /-- `x_rain[10:0]` (R168). -/
  | xRain (v : BitVec 11)
  /-- The value of `BYTE(k)` (R147). -/
  | byte (v : BitVec 8)
  /-- The value of `LONIB(k)` (R148). -/
  | lonib (v : BitVec 4)
  /-- The value of `HINIB(k)` (R149). -/
  | hinib (v : BitVec 4)
  /-- The value of `BIT7(k)` (R150). -/
  | bit7 (v : Bool)
  /-- The value of `BCD3(d0, d1, d2)`, 11 bits (R161). -/
  | bcd3 (v : BitVec 11)
  /-- The value of `POPCNT8(v)`, a number from 0 to 8 (R134). -/
  | popcnt8 (n : Nat)
  deriving DecidableEq, Repr

/-- The machine's state. -/
structure State where
  /-- The block's own state (R47). -/
  block : Block
  /-- THE MODEL'S OWN: the values the host puts on the input ports at the coming edges, the next edge's
  first. Where the list is empty the inputs are the free value `Config.hostInputs edge`. -/
  inputs : List Inputs
  /-- THE MODEL'S OWN: the number of the coming edge, which only the free value is applied to. -/
  edge : Nat
  /-- THE MODEL'S OWN: the combinational output last looked at by an extractor or a primitive. -/
  probe : Option Signal
  deriving DecidableEq, Repr

/-- The state after a reset edge (R260), with no input lined up and no output looked at. -/
def State.reset : State :=
  { block := Block.atReset, inputs := [], edge := 0, probe := none }

/-- The reasons the machine stops with a fault: none. "The block has no fault, no stuck state and no
refusal of its own; every 27-byte value gives one of the three outcomes" (R13). -/
inductive Fault where
  deriving DecidableEq, Repr

/-- The reasons a step is refused. -/
inductive Refusal where
  /-- An operation that has no meaning yet. Nothing raises it: every arm of `exec` has its meaning. Safe. -/
  | notModelled (mnemonic : String)
  /-- The word at the ports selects no operation: raised by `step` where the decoder rejects. The word
  is made from a `STATE` of seven values, so no state raises it (R108, R180). Safe. -/
  | noOperation (reason : Reject)
  deriving DecidableEq, Repr

end Sys2Proof.Machine
end

