-- ==== Sys2Proof/Machine/Ops.lean ====
section
/-! DEFINITION. The named operations over the frame buffer and the registers: reading and writing `FB`,
copying a frame into it, the payload, raising one of the two errors, and the clock edge. -/

namespace Sys2Proof.Machine

/-! ### The frame buffer -/

/-- The byte a list of pairs gives an index; the first pair for the index counts. -/
def Memory.lookup (x : Nat) : List Host.Cell → Byte
  | [] => Memory.unlisted
  | (a, v) :: cs => if a = x then v else Memory.lookup x cs

/-- `FB[i]` (R10, R21). -/
def Memory.read (m : Memory) (i : Nat) : Byte := Memory.lookup i m.cells

/-- A pair put at its place among rising indices, or left out where its byte is what an unlisted index
reads as. -/
def Memory.put (x : Nat) (v : Byte) : List Host.Cell → List Host.Cell
  | [] => if v = Memory.unlisted then [] else [(x, v)]
  | (a, w) :: cs =>
    if x < a then (if v = Memory.unlisted then (a, w) :: cs else (x, v) :: (a, w) :: cs)
    else if x = a then (if v = Memory.unlisted then cs else (x, v) :: cs)
    else (a, w) :: Memory.put x v cs

/-- `FB[i] <- v` (R10). Only `LOAD` and `RESET` use it (R68). -/
def Memory.write (m : Memory) (i : Nat) (v : Byte) : Memory := ⟨Memory.put i v m.cells⟩

/-- The pairs rise from `lo`, lie below 27, and list no byte that an unlisted index reads as. -/
def Memory.wfFrom (lo : Nat) : List Host.Cell → Bool
  | [] => true
  | (a, v) :: cs =>
    decide (lo ≤ a) && decide (a < Config.frameLen) && (v != Memory.unlisted) &&
      Memory.wfFrom (a + 1) cs

/-- The frame buffer is in its canonical form. -/
def Memory.wf (m : Memory) : Bool := Memory.wfFrom 0 m.cells

/-- `for i in 0..26: FB[i] <- frame_in[8*i+7 : 8*i]`: the whole buffer written from a frame (R181). -/
def Memory.ofFrame (f : Frame) : Memory :=
  (List.range Config.frameLen).foldl (fun m i => m.write i (Frame.byte f i)) ⟨[]⟩

/-- `P[k] = FB[k + 1]` (R63). -/
def Block.payload (b : Block) : Payload := fun k => b.fb.read (k + 1)

/-- The payload of a raw frame: raw bytes 1 to 26 (R63, R194). -/
def Frame.payload (f : Frame) : Payload := fun k => Frame.byte f (k + 1)

/-! ### The two errors (the exceptions of this block) -/

/-- The two kinds of error, with the values recorded (R230, R231). -/
inductive CallError where
  /-- `ParityError(failing_column_index)`. -/
  | parityError (col : BitVec 4)
  /-- `ChecksumError(expected, actual)`. -/
  | checksumError (expected actual : Byte)
  deriving DecidableEq, Repr

/-- `raise`: entry into a failure state (R232, R233). It writes the error's own registers and `STATE`,
and nothing else changes (R237). There is no return operation (R238). -/
def Block.raise (e : CallError) (b : Block) : Block :=
  match e with
  | .parityError col => { b with errCol := col, seq := .parityFailed }
  | .checksumError expected actual =>
    { b with ckExpected := expected, ckActual := actual, seq := .checksumFailed }

/-! ### The machine around the block -/

/-- The block replaced, the rest of the state kept. -/
def State.setBlock (s : State) (b : Block) : State := { s with block := b }

/-- A combinational output looked at: nothing of the block changes (R68, R98; assumption 4). -/
def State.look (s : State) (v : Signal) : State := { s with probe := some v }

/-- The inputs at the coming edge: the first the host has lined up, else the free value (assumption 2). -/
def State.pins (s : State) : Inputs :=
  match s.inputs with
  | p :: _ => p
  | [] => Config.hostInputs s.edge

/-- The edge has passed: its inputs are gone, and the next edge is the coming one (R20). -/
def State.advance (s : State) : State := { s with inputs := s.inputs.tail, edge := s.edge + 1 }

end Sys2Proof.Machine
end

