-- ==== Sys2Proof/Machine/Operands.lean ====
section
/-! DEFINITION. The selection primitives (R147 to R150), the decimal combiner (R161), the bit count of a
byte (R134) and the 12-bit negation (R10): every form in which an operation reads a payload. -/

namespace Sys2Proof.Machine

/-- `BYTE(k)`: payload byte `k` (R147). -/
def byteAt (P : Payload) (k : Nat) : Byte := P k

/-- `LONIB(k)`: `P[k][3:0]` (R148). -/
def lonib (P : Payload) (k : Nat) : Nibble := (P k).extractLsb' 0 4

/-- `HINIB(k)`: `P[k][7:4]` (R149). -/
def hinib (P : Payload) (k : Nat) : Nibble := (P k).extractLsb' 4 4

/-- `BIT7(k)`: `(P[k] & 0x80) != 0` (R150). -/
def bit7 (P : Payload) (k : Nat) : Bool := P k &&& Config.battMask != 0#8

/-- `BCD3(d0, d1, d2)` on integers: units, tens, hundreds (R161). -/
def bcd3 (d0 d1 d2 : Nibble) : Nat := d0.toNat + 10 * d1.toNat + 100 * d2.toNat

/-- `BCD3` in the 11 bits that hold every value of it (R161, R169). -/
def bcd3Word (d0 d1 d2 : Nibble) : BitVec 11 := BitVec.ofNat 11 (bcd3 d0 d1 d2)

/-- `POPCNT8(b)`: the sum of the eight bits (R134). -/
def popcnt8 (b : Byte) : Nat :=
  (b.getLsbD 0).toNat + (b.getLsbD 1).toNat + (b.getLsbD 2).toNat + (b.getLsbD 3).toNat +
    (b.getLsbD 4).toNat + (b.getLsbD 5).toNat + (b.getLsbD 6).toNat + (b.getLsbD 7).toNat

/-- `zext_12(v)` of an 11-bit value (R10). -/
def zext12 (v : BitVec 11) : BitVec 12 := v.setWidth 12

/-- `neg12(v) = (4096 - v) mod 4096` (R10). -/
def neg12 (v : BitVec 12) : BitVec 12 := BitVec.ofNat 12 ((4096 - v.toNat) % 4096)

/-- `temp_neg ? neg12(zext_12(temp_mag)) : zext_12(temp_mag)` (R38, R163). -/
def signedTenths (neg : Bool) (mag : BitVec 11) : BitVec 12 :=
  if neg then neg12 (zext12 mag) else zext12 mag

end Sys2Proof.Machine
end

