-- ==== Sys2Proof/Machine/Checksum.lean ====
section
/-! DEFINITION. The `checksum_validator` sub-block: the bit count, the function `checksum_check`, its
signals (R130 to R137), and the meaning of the primitive `POPCNT8`. -/

namespace Sys2Proof.Machine

/-- The number of 1 bits in `P[14]` to `P[25]`, on integers (R130, R131). -/
def bitCount (P : Payload) : Nat :=
  ((List.range (Config.ckHi + 1 - Config.ckLo)).map (fun j => popcnt8 (P (Config.ckLo + j)))).sum

/-- The result of `checksum_check` (R132). -/
inductive ChecksumResult where
  | ok (expected actual : Byte)
  | mismatch (expected actual : Byte)
  deriving DecidableEq, Repr

/-- `ck_expected_w`: the declared checksum, `P[13]` (R132). -/
def ckExpectedW (P : Payload) : Byte := P Config.ckIdx

/-- `ck_actual_w`: the count in 8 bits (R131, R132). -/
def ckActualW (P : Payload) : Byte := BitVec.ofNat 8 (bitCount P)

/-- `ck_ok`: all 8 bits compared (R132). -/
def ckOk (P : Payload) : Bool := ckActualW P == ckExpectedW P

/-- `checksum_check` (R132). -/
def checksumCheck (P : Payload) : ChecksumResult :=
  if ckOk P then .ok (ckExpectedW P) (ckActualW P) else .mismatch (ckExpectedW P) (ckActualW P)

/-- `POPCNT8(v)` (R134). -/
def execPopcnt8 (v : Byte) (s : State) : Host.Outcome State Fault Refusal :=
  .next (s.look (.popcnt8 (popcnt8 v)))

end Sys2Proof.Machine
end

