-- ==== Sys2Proof/Machine/Parity.lean ====
section
/-! DEFINITION. The `parity_checker` sub-block: the function `parity_check` and the signals `par_ok` and
`par_col` (R120 to R126). -/

namespace Sys2Proof.Machine

/-- `bad(col)`: the two bytes of a column are not complements of each other (R121). -/
def badColumn (P : Payload) (col : Nat) : Bool := P col ^^^ P (col + Config.half) != Config.parMask

/-- The result of `parity_check`: success, or the first mismatching column (R121, R122). -/
inductive ParityResult where
  | ok
  | fail (col : Nat)
  deriving DecidableEq, Repr

/-- `parity_check`: the columns 0 to 12 in this order, the first mismatching one reported (R121). -/
def parityCheck (P : Payload) : ParityResult :=
  match (List.range Config.half).find? (badColumn P) with
  | none => .ok
  | some col => .fail col

/-- `par_ok` (R121, R26). -/
def parOk (P : Payload) : Bool := parityCheck P == .ok

/-- `par_col`: the column, or 0 where parity holds (R121, R123). -/
def parCol (P : Payload) : BitVec 4 :=
  match parityCheck P with
  | .ok => 0#4
  | .fail col => BitVec.ofNat 4 col

end Sys2Proof.Machine
end

