-- ==== Sys2Proof/Machine/Flags.lean ====
section
/-! DEFINITION. Every flag and output: the functions of `STATE` (R24, R25), the derived `temp_tenths`
(R38), the output ports (R28), and the reading and the outcome as values (R34, R218). The condition
signals `par_ok`, `par_col`, `ck_ok`, `ck_expected_w`, `ck_actual_w` (R26) stand in Parity and
Checksum. There are no carry, zero, overflow or sign flags (R26). -/

namespace Sys2Proof.Machine

/-- `result[1:0]`: 0 `NONE`, 1 `DECODED`, 2 `PARITY_ERROR`, 3 `CHECKSUM_ERROR` (R24, R96). -/
def resultOf : SeqState → BitVec 2
  | .idle => 0#2
  | .start => 0#2
  | .parityChecked => 0#2
  | .checksumChecked => 0#2
  | .decoded => 1#2
  | .parityFailed => 2#2
  | .checksumFailed => 3#2

/-- `busy`: a `start` would be ignored (R25). -/
def busyOf : SeqState → Bool
  | .idle => false
  | .start => true
  | .parityChecked => true
  | .checksumChecked => true
  | .decoded => false
  | .parityFailed => false
  | .checksumFailed => false

/-- `done`: the outcome may be read (R25). -/
def doneOf : SeqState → Bool
  | .idle => false
  | .start => false
  | .parityChecked => false
  | .checksumChecked => false
  | .decoded => true
  | .parityFailed => true
  | .checksumFailed => true

/-- `reading_valid`: the reading ports hold a `WeatherReading` (R25). -/
def readingValidOf : SeqState → Bool
  | .idle => false
  | .start => false
  | .parityChecked => false
  | .checksumChecked => false
  | .decoded => true
  | .parityFailed => false
  | .checksumFailed => false

/-- A resting state: a `start` is accepted (glossary of 00_scope.md, R182). -/
def restingState (q : SeqState) : Bool := !busyOf q

/-- `temp_tenths[11:0]`: a function of two registers at all times (R38). -/
def WeatherReading.tempTenths (r : WeatherReading) : BitVec 12 := signedTenths r.tempNeg r.tempMag

/-- The output ports (R28). -/
structure Outputs where
  state : BitVec 3
  result : BitVec 2
  busy : Bool
  done : Bool
  readingValid : Bool
  errCol : BitVec 4
  ckExpected : BitVec 8
  ckActual : BitVec 8
  sensorId : BitVec 8
  tempMag : BitVec 11
  tempNeg : Bool
  tempTenths : BitVec 12
  humidity : BitVec 8
  windDirRaw : BitVec 4
  windGustTenths : BitVec 12
  windAvgTenths : BitVec 11
  rainTenths : BitVec 11
  batteryOk : Bool
  deriving DecidableEq, Repr

/-- What the output ports show: functions of the registers alone (R20, R28). -/
def Block.outputs (b : Block) : Outputs :=
  { state := b.seq.code
    result := resultOf b.seq
    busy := busyOf b.seq
    done := doneOf b.seq
    readingValid := readingValidOf b.seq
    errCol := b.errCol
    ckExpected := b.ckExpected
    ckActual := b.ckActual
    sensorId := b.reading.sensorId
    tempMag := b.reading.tempMag
    tempNeg := b.reading.tempNeg
    tempTenths := b.reading.tempTenths
    humidity := b.reading.humidity
    windDirRaw := b.reading.windDirRaw
    windGustTenths := b.reading.windGustTenths
    windAvgTenths := b.reading.windAvgTenths
    rainTenths := b.reading.rainTenths
    batteryOk := b.reading.batteryOk }

/-- The reading as a value: `some` of the nine registers exactly in `Decoded` (R34). -/
def Block.reading? (b : Block) : Option WeatherReading :=
  match b.seq with
  | .idle => none
  | .start => none
  | .parityChecked => none
  | .checksumChecked => none
  | .decoded => some b.reading
  | .parityFailed => none
  | .checksumFailed => none

/-- The three outcomes of a finished call (R13, R194). -/
inductive CallOutcome where
  | decoded (reading : WeatherReading)
  | parityError (col : BitVec 4)
  | checksumError (expected actual : Byte)
  deriving DecidableEq, Repr

/-- The host operation `READ`: what the host may take while `done` is 1 (R218); nothing before. -/
def Block.outcome? (b : Block) : Option CallOutcome :=
  match b.seq with
  | .idle => none
  | .start => none
  | .parityChecked => none
  | .checksumChecked => none
  | .decoded => some (.decoded b.reading)
  | .parityFailed => some (.parityError b.errCol)
  | .checksumFailed => some (.checksumError b.ckExpected b.ckActual)

end Sys2Proof.Machine
end

