-- ==== Sys2Proof/Machine/Slicer.lean ====
section
/-! DEFINITION. The `bit_field_slicer` sub-block: its outputs (R140 to R146) and the meanings of its four
extractors and of the four selection primitives (R147 to R150). An extractor computes its output from
`FB` and writes no register (R68, R98; assumption 4). -/

namespace Sys2Proof.Machine

/-- `x_sensor_id` (R141). -/
def xSensorId (P : Payload) : BitVec 8 := byteAt P 14

/-- `x_wind_dir_raw` (R143). -/
def xWindDirRaw (P : Payload) : BitVec 4 := hinib P 17

/-- `x_wind_gust`: `{LONIB(17), BYTE(16)}` (R144). -/
def xWindGust (P : Payload) : BitVec 12 := lonib P 17 ++ byteAt P 16

/-- `x_battery_ok` (R145). -/
def xBatteryOk (P : Payload) : Bool := !bit7 P 25

/-- `x_temp_neg` (R146). -/
def xTempNeg (P : Payload) : Bool := lonib P 25 != 0#4

/-- `XSID` (R141). -/
def execXsid (s : State) : Host.Outcome State Fault Refusal :=
  .next (s.look (.xSensorId (xSensorId s.block.payload)))

/-- `XWDIR` (R143). -/
def execXwdir (s : State) : Host.Outcome State Fault Refusal :=
  .next (s.look (.xWindDirRaw (xWindDirRaw s.block.payload)))

/-- `XGUST` (R144). -/
def execXgust (s : State) : Host.Outcome State Fault Refusal :=
  .next (s.look (.xWindGust (xWindGust s.block.payload)))

/-- `XBATT` (R145). -/
def execXbatt (s : State) : Host.Outcome State Fault Refusal :=
  .next (s.look (.xBatteryOk (xBatteryOk s.block.payload)))

/-- `BYTE(k)` (R147). -/
def execByte (k : Fin 26) (s : State) : Host.Outcome State Fault Refusal :=
  .next (s.look (.byte (byteAt s.block.payload k)))

/-- `LONIB(k)` (R148). -/
def execLonib (k : Fin 26) (s : State) : Host.Outcome State Fault Refusal :=
  .next (s.look (.lonib (lonib s.block.payload k)))

/-- `HINIB(k)` (R149). -/
def execHinib (k : Fin 26) (s : State) : Host.Outcome State Fault Refusal :=
  .next (s.look (.hinib (hinib s.block.payload k)))

/-- `BIT7(k)` (R150). -/
def execBit7 (k : Fin 26) (s : State) : Host.Outcome State Fault Refusal :=
  .next (s.look (.bit7 (bit7 s.block.payload k)))

end Sys2Proof.Machine
end

