-- ==== Sys2Proof/Machine/Bcd.lean ====
section
/-! DEFINITION. The `bcd_nibble_extractor` sub-block: its outputs (R160 to R168) and the meanings of its
four extractors and of the primitive `BCD3`. No digit is checked (R170). -/

namespace Sys2Proof.Machine

/-- `x_temp_mag` (R162). -/
def xTempMag (P : Payload) : BitVec 11 := bcd3Word (lonib P 20) (hinib P 20) (lonib P 21)

/-- `x_temp_tenths` (R163). -/
def xTempTenths (P : Payload) : BitVec 12 := signedTenths (xTempNeg P) (xTempMag P)

/-- `x_humidity`: `LONIB(22) + 10*HINIB(22)` (R164). -/
def xHumidity (P : Payload) : BitVec 8 :=
  BitVec.ofNat 8 ((lonib P 22).toNat + 10 * (hinib P 22).toNat)

/-- `x_wind_avg` (R165). -/
def xWindAvg (P : Payload) : BitVec 11 := bcd3Word (lonib P 18) (hinib P 18) (lonib P 19)

/-- `x_rain` (R168). -/
def xRain (P : Payload) : BitVec 11 := bcd3Word (lonib P 23) (hinib P 23) (lonib P 24)

/-- `XTEMP`: magnitude, sign and signed value (R162, R146, R163). -/
def execXtemp (s : State) : Host.Outcome State Fault Refusal :=
  .next (s.look (.xTemp (xTempMag s.block.payload) (xTempNeg s.block.payload)
    (xTempTenths s.block.payload)))

/-- `XHUM` (R164). -/
def execXhum (s : State) : Host.Outcome State Fault Refusal :=
  .next (s.look (.xHumidity (xHumidity s.block.payload)))

/-- `XWAVG` (R165). -/
def execXwavg (s : State) : Host.Outcome State Fault Refusal :=
  .next (s.look (.xWindAvg (xWindAvg s.block.payload)))

/-- `XRAIN` (R168). -/
def execXrain (s : State) : Host.Outcome State Fault Refusal :=
  .next (s.look (.xRain (xRain s.block.payload)))

/-- `BCD3(d0, d1, d2)` (R161). -/
def execBcd3 (d0 d1 d2 : Nibble) (s : State) : Host.Outcome State Fault Refusal :=
  .next (s.look (.bcd3 (bcd3Word d0 d1 d2)))

end Sys2Proof.Machine
end

