-- ==== Sys2Proof/Machine/Sequencer.lean ====
section
/-! DEFINITION. The `frame_decoder_orchestrator` sub-block: what each of the six operations of an edge
does to the block (R181 to R190, R260), and their meanings. Which operation an edge performs is the
decoder's matter (R98, R180): a meaning has the effect of its pseudocode in every state
(assumption 5). -/

namespace Sys2Proof.Machine

/-! ### The block's transitions -/

/-- `LOAD`: the frame copied, every result register cleared, `STATE <- Start` (R181). Nothing of the
block before it is kept (R196). -/
def Block.loaded (frame : Frame) : Block :=
  { fb := Memory.ofFrame frame, seq := .start, errCol := 0#4, ckExpected := 0#8, ckActual := 0#8,
    reading := WeatherReading.zero }

/-- `PARCHK` (R184). -/
def Block.parchk (b : Block) : Block :=
  match parityCheck b.payload with
  | .ok => { b with seq := .parityChecked }
  | .fail col => b.raise (.parityError (BitVec.ofNat 4 col))

/-- `CKSUM` (R186). -/
def Block.cksum (b : Block) : Block :=
  match checksumCheck b.payload with
  | .ok e a => { b with ckExpected := e, ckActual := a, seq := .checksumChecked }
  | .mismatch e a => b.raise (.checksumError e a)

/-- The eight extractors applied to a payload (R190, R194). -/
def readingOf (P : Payload) : WeatherReading :=
  { sensorId := xSensorId P
    tempMag := xTempMag P
    tempNeg := xTempNeg P
    humidity := xHumidity P
    windDirRaw := xWindDirRaw P
    windGustTenths := xWindGust P
    windAvgTenths := xWindAvg P
    rainTenths := xRain P
    batteryOk := xBatteryOk P }

/-- `EXTRACT`: the nine reading registers written together (R190). -/
def Block.extract (b : Block) : Block := { b with reading := readingOf b.payload, seq := .decoded }

/-! ### The meanings -/

/-- `RESET`; `start` and the state's code are not looked at (R260). -/
def execReset (_start : Bool) (_state : BitVec 3) (s : State) : Host.Outcome State Fault Refusal :=
  .next (s.setBlock Block.atReset)

/-- `LOAD` from `Idle` (R181). -/
def execLoadIdle (frame : Frame) (s : State) : Host.Outcome State Fault Refusal :=
  .next (s.setBlock (Block.loaded frame))

/-- `LOAD` from a terminal state (R181). -/
def execLoadTerminal (_src : SeqState) (frame : Frame) (s : State) :
    Host.Outcome State Fault Refusal :=
  .next (s.setBlock (Block.loaded frame))

/-- `HOLD` in `Idle`: nothing is written (R183). -/
def execHoldIdle (s : State) : Host.Outcome State Fault Refusal := .next s

/-- `HOLD` in a terminal state: nothing is written (R183, R188). -/
def execHoldTerminal (_src : SeqState) (s : State) : Host.Outcome State Fault Refusal := .next s

/-- `PARCHK`; `start` is not looked at (R184). -/
def execParchk (_start : Bool) (s : State) : Host.Outcome State Fault Refusal :=
  .next (s.setBlock s.block.parchk)

/-- `CKSUM`; `start` is not looked at (R186). -/
def execCksum (_start : Bool) (s : State) : Host.Outcome State Fault Refusal :=
  .next (s.setBlock s.block.cksum)

/-- `EXTRACT`; `start` is not looked at (R190). -/
def execExtract (_start : Bool) (s : State) : Host.Outcome State Fault Refusal :=
  .next (s.setBlock s.block.extract)

end Sys2Proof.Machine
end

