-- ==== Sys2Proof/Machine/Call.lean ====
section
/-! DEFINITION. A whole call: the normative function `decode` (R194), the expansion of the
pseudo-operation `DECODE` (R103) and its meaning, and the encoder for test benches (R110). -/

namespace Sys2Proof.Machine

/-- `decode`: the pure function from a payload to one of the three outcomes (R194). -/
def decodePayload (P : Payload) : CallOutcome :=
  match parityCheck P with
  | .fail col => .parityError (BitVec.ofNat 4 col)
  | .ok =>
    match checksumCheck P with
    | .mismatch e a => .checksumError e a
    | .ok _ _ => .decoded (readingOf P)

/-- `decode_raw(F) = decode(F[1..26])`; raw byte 0 is not read (R194, R62). -/
def decodeRaw (f : Frame) : CallOutcome := decodePayload (Frame.payload f)

/-- `LOAD; PARCHK; [CKSUM; [EXTRACT]]`: `CKSUM` only where `PARCHK` succeeded, `EXTRACT` only where
`CKSUM` succeeded (R103). -/
def Block.wholeCall (frame : Frame) : Block :=
  let b1 := (Block.loaded frame).parchk
  if b1.seq = .parityChecked then
    let b2 := b1.cksum
    if b2.seq = .checksumChecked then b2.extract else b2
  else b1

/-- `DECODE`: the block after the whole call (R103, R195). It stands for two to four edges with `rst` low;
the host's line of inputs and the edge count are left alone (assumption 6). -/
def execDecode (frame : Frame) (s : State) : Host.Outcome State Fault Refusal :=
  .next (s.setBlock (Block.wholeCall frame))

/-- Data byte `D[j]` of twelve (R110). -/
def dataByte (d : BitVec 96) (j : Nat) : Byte := d.extractLsb' (8 * j) 8

/-- The number of 1 bits in the twelve data bytes (R110). -/
def dataCount (d : BitVec 96) : Nat := ((List.range 12).map (fun j => popcnt8 (dataByte d j))).sum

/-- The second half of an encoded payload: the count and then the data (R110). -/
def encodedHalf (d : BitVec 96) : List Byte :=
  BitVec.ofNat 8 (dataCount d) :: (List.range 12).map (dataByte d)

/-- The frame that decodes to the fields of twelve data bytes, `D[0]` the lowest byte of `d` (R110). -/
def encodeFrame (d : BitVec 96) : Frame :=
  Frame.ofBytes (Config.syncByte :: ((encodedHalf d).map (fun b => ~~~b) ++ encodedHalf d))

end Sys2Proof.Machine
end

