-- ==== Sys2Proof/Machine/Dispatch.lean ====
section
/-! DEFINITION. The meaning of every instruction, by one direct call for each constructor. -/

namespace Sys2Proof.Machine

def exec (i : Instr) (s : State) : Host.Outcome State Fault Refusal :=
  match i with
  | .reset start state => Sys2Proof.Machine.execReset start state s
  | .loadIdle frame => Sys2Proof.Machine.execLoadIdle frame s
  | .loadTerminal src frame => Sys2Proof.Machine.execLoadTerminal src frame s
  | .holdIdle => Sys2Proof.Machine.execHoldIdle s
  | .holdTerminal src => Sys2Proof.Machine.execHoldTerminal src s
  | .parchk start => Sys2Proof.Machine.execParchk start s
  | .cksum start => Sys2Proof.Machine.execCksum start s
  | .extract start => Sys2Proof.Machine.execExtract start s
  | .xsid => Sys2Proof.Machine.execXsid s
  | .xwdir => Sys2Proof.Machine.execXwdir s
  | .xgust => Sys2Proof.Machine.execXgust s
  | .xbatt => Sys2Proof.Machine.execXbatt s
  | .xtemp => Sys2Proof.Machine.execXtemp s
  | .xhum => Sys2Proof.Machine.execXhum s
  | .xwavg => Sys2Proof.Machine.execXwavg s
  | .xrain => Sys2Proof.Machine.execXrain s
  | .byte k => Sys2Proof.Machine.execByte k s
  | .lonib k => Sys2Proof.Machine.execLonib k s
  | .hinib k => Sys2Proof.Machine.execHinib k s
  | .bit7 k => Sys2Proof.Machine.execBit7 k s
  | .bcd3 d0 d1 d2 => Sys2Proof.Machine.execBcd3 d0 d1 d2 s
  | .popcnt8 v => Sys2Proof.Machine.execPopcnt8 v s
  | .decode frame => Sys2Proof.Machine.execDecode frame s

end Sys2Proof.Machine
end

