-- ==== Sys2Proof/Machine/Fetch.lean ====
section
/-! DEFINITION. What selects the operation of the coming edge: the word `{rst, start, state[2:0]}` made
from the input ports and the `STATE` register, and the operand `frame_in` (R98). "Nothing is fetched"
from a memory (R75). Placing a table word there is for the host. -/

namespace Sys2Proof.Machine

/-- The bytes at the ports: the selecting word's byte, then the 27 bytes of `frame_in` (R98, R27). -/
def fetch (s : State) : List Byte :=
  selByte s.pins.rst s.pins.start s.block.seq.code :: Frame.bytes s.pins.frameIn

/-- The inputs of the coming edge replaced. -/
def State.setPins (s : State) (p : Inputs) : State := { s with inputs := p :: s.inputs.tail }

/-- The `STATE` register set, the rest of the block kept. -/
def State.setSeq (s : State) (q : SeqState) : State := { s with block := { s.block with seq := q } }

/-- A table word placed where the step reads its selecting word: bits 4 and 3 on `rst` and `start`, bits
2..0 in `STATE` (code 7 has no state and leaves `STATE` as it is), the bits from 8 on on `frame_in`. A
word of 216 bits is `DECODE`'s raw frame: the ports request the call it stands for, whose first
operation is `LOAD` (assumption 7). -/
def placeWord (s : State) (nbits w : Nat) : State :=
  let v := w % 2 ^ nbits
  if nbits = 216 then
    (s.setPins ⟨false, true, BitVec.ofNat 216 v⟩).setSeq
      (if busyOf s.block.seq then .idle else s.block.seq)
  else
    (s.setPins ⟨v.testBit 4, v.testBit 3, BitVec.ofNat 216 (v / 256)⟩).setSeq
      ((SeqState.ofCode? (BitVec.ofNat 3 v)).getD s.block.seq)

end Sys2Proof.Machine
end

