-- ==== Sys2Proof/Machine/Step.lean ====
section
/-! DEFINITION. One rising edge of `clk` is one step (R20, R180): the word at the ports is decoded, its
operation performed, and the edge passes. -/

namespace Sys2Proof.Machine

/-- The edge passes after the operation. -/
def afterEdge : Host.Outcome State Fault Refusal → Host.Outcome State Fault Refusal
  | .next t => .next t.advance
  | .fault r => .fault r
  | .refused r => .refused r

/-- One rising edge (R180). -/
def step (s : State) : Host.Outcome State Fault Refusal :=
  match decodeBytes (fetch s) with
  | .ok (i, _) => afterEdge (exec i s)
  | .error r => .refused (.noOperation r)

/-- A table word stored where the next step reads its selecting word. -/
def State.withFetchWord (s : State) (nbits w : Nat) : State := placeWord s nbits w

end Sys2Proof.Machine
end

