-- ==== Sys2Proof/Machine/Physical.lean ====
section
/-! DEFINITION. The physical values the integer outputs stand for (R166) and the host's rendering of them
with the open parameter `FLOAT_RENDER` (R8, R167), which is an argument. -/

namespace Sys2Proof.Machine

/-- `temperature_tenths` as an integer (R163). -/
def WeatherReading.temperatureTenths (r : WeatherReading) : Int :=
  if r.tempNeg then -(r.tempMag.toNat : Int) else r.tempMag.toNat

/-- `temperature_celsius`: `sext(temp_tenths)` in tenths (R38, R166). -/
def WeatherReading.temperatureCelsius (r : WeatherReading) : ℚ := r.tempTenths.toInt * Config.tenth

/-- `humidity_percent` (R166). -/
def WeatherReading.humidityPercent (r : WeatherReading) : Nat := r.humidity.toNat

/-- `wind_direction_degrees` (R143, R166). -/
def WeatherReading.windDirectionDegrees (r : WeatherReading) : ℚ :=
  r.windDirRaw.toNat * Config.dirStep

/-- `wind_gust_meters_per_sec` (R144, R166). -/
def WeatherReading.windGustMetersPerSec (r : WeatherReading) : ℚ :=
  r.windGustTenths.toNat * Config.tenth

/-- `wind_avg_meters_per_sec` (R166). -/
def WeatherReading.windAvgMetersPerSec (r : WeatherReading) : ℚ :=
  r.windAvgTenths.toNat * Config.tenth

/-- `rain_millimeters` (R166). -/
def WeatherReading.rainMillimeters (r : WeatherReading) : ℚ := r.rainTenths.toNat * Config.tenth

/-- A reading with its "floating point" fields in the host's floating type (R167). -/
structure RenderedReading (F : Type) where
  sensorId : BitVec 8
  temperatureCelsius : F
  humidityPercent : Nat
  windDirectionDegrees : F
  windGustMetersPerSec : F
  windAvgMetersPerSec : F
  rainMillimeters : F
  batteryOk : Bool

/-- The host's rendering; `floatRender` is the open parameter `FLOAT_RENDER` (R8, R167). -/
def WeatherReading.rendered {F : Type} (floatRender : ℚ → F) (r : WeatherReading) :
    RenderedReading F :=
  { sensorId := r.sensorId
    temperatureCelsius := floatRender r.temperatureCelsius
    humidityPercent := r.humidityPercent
    windDirectionDegrees := floatRender r.windDirectionDegrees
    windGustMetersPerSec := floatRender r.windGustMetersPerSec
    windAvgMetersPerSec := floatRender r.windAvgMetersPerSec
    rainMillimeters := floatRender r.rainMillimeters
    batteryOk := r.batteryOk }

end Sys2Proof.Machine
end

