-- ==== Sys2Proof/Machine/HostSide.lean ====
section
/-! DEFINITION. The host's contract as far as the spec states it (45_host_interface.md): the
synchronisation check, the call protocol, the packet-ready flag, the loop condition, the sensor filter
and the reading sink. The host's own state stands here and not in `State`: it is "host state" (R12). -/

namespace Sys2Proof.Machine

/-- Raw byte 0 must equal `0xD4`, or the host discards the frame without a call (R212). -/
def hostMayCall (raw : Frame) : Bool := Frame.byte raw 0 == Config.syncByte

/-- The inputs of one `CALL`: `start` with the frame over one edge, then `start` low for the three edges
within which the call ends; `frame_in` may change after the accepting edge (R217). -/
def callInputs (raw x1 x2 x3 : Frame) : List Inputs :=
  [⟨false, true, raw⟩, ⟨false, false, x1⟩, ⟨false, false, x2⟩, ⟨false, false, x3⟩]

/-- The host's own state: the one-bit packet-ready flag (R216), whether the radio's interrupt is enabled,
which re-arming the receiver does (R242), and the optional target sensor identifier (R214). -/
structure HostState where
  packetReady : Bool
  armed : Bool
  sensorFilter : Option Byte
  deriving DecidableEq, Repr

/-- Re-arming the receiver enables the interrupt (R242). -/
def HostState.rearm (h : HostState) : HostState := { h with armed := true }

/-- A packet arrives: the radio's interrupt, where it is enabled, sets the flag and does nothing else; where
it is not enabled there is no interrupt (R216, R242). DEDUCED: the interrupt leaves the receiver armed, since
two packets may arrive during one decode (assumption 11). -/
def HostState.interrupt (h : HostState) : HostState :=
  if h.armed then { h with packetReady := true } else h

/-- One look of the polling loop: it goes on to process a packet where the flag is set and the sensor is
configured, a conjunction of two booleans (R222), and clears the flag and re-arms the receiver before
processing (R216). DESIGN CHOICE: where it does not go on it leaves the flag and the receiver as they are
(assumption 11). -/
def HostState.poll (sensorConfigured : Bool) (h : HostState) : Bool × HostState :=
  if h.packetReady && sensorConfigured then (true, { h with packetReady := false }.rearm)
  else (false, h)

/-- Whether a reading's identifier matches the configured target; `none` where no target is configured.
What the caller does on either answer is its own policy (R214). -/
def HostState.filterVerdict (h : HostState) (r : WeatherReading) : Option Bool :=
  h.sensorFilter.map (fun target => r.sensorId == target)

/-- The seven consumers of the reading sink (R215). -/
inductive SinkField where
  | temperature
  | humidity
  | windSpeed
  | windGust
  | windDirection
  | rainAccumulation
  | batteryStatus
  deriving DecidableEq, Repr

/-- One scalar update (R215). -/
inductive SinkValue where
  | number (q : ℚ)
  | flag (b : Bool)
  deriving DecidableEq, Repr

/-- The value a field's consumer is given; "wind speed" is the field `wind_average` (R215, R166). -/
def sinkValue (r : WeatherReading) : SinkField → SinkValue
  | .temperature => .number r.temperatureCelsius
  | .humidity => .number r.humidityPercent
  | .windSpeed => .number r.windAvgMetersPerSec
  | .windGust => .number r.windGustMetersPerSec
  | .windDirection => .number r.windDirectionDegrees
  | .rainAccumulation => .number r.rainMillimeters
  | .batteryStatus => .flag r.batteryOk

/-- The updates delivered to the consumers that are present; an absent one is given nothing (R215). -/
def sinkUpdates (consumers : List SinkField) (r : WeatherReading) : List (SinkField × SinkValue) :=
  consumers.map (fun c => (c, sinkValue r c))

end Sys2Proof.Machine
end

