-- ==== Sys2Proof/Safety.lean ====
section
/-! DEFINITION. What claims are stated in: the invariant of the block (R192), the conditions and the fields
of the spec written out without the model's own functions, the inputs a conforming host drives (R212,
R271), and when a step is safe. -/

namespace Sys2Proof.Machine

/-- What holds in each state at every moment after the first reset (R192), with the canonical form of
the frame buffer. -/
def Block.Inv (b : Block) : Prop :=
  b.fb.wf = true ∧
    match b.seq with
    | .idle => b = Block.atReset
    | .start =>
      b.errCol = 0#4 ∧ b.ckExpected = 0#8 ∧ b.ckActual = 0#8 ∧ b.reading = WeatherReading.zero
    | .parityChecked =>
      b.errCol = 0#4 ∧ b.ckExpected = 0#8 ∧ b.ckActual = 0#8 ∧ b.reading = WeatherReading.zero ∧
        parityCheck b.payload = .ok
    | .checksumChecked =>
      b.errCol = 0#4 ∧ b.ckExpected = b.payload 13 ∧ b.ckActual = b.payload 13 ∧
        b.reading = WeatherReading.zero ∧ parityCheck b.payload = .ok ∧ ckOk b.payload = true
    | .decoded =>
      b.errCol = 0#4 ∧ b.ckExpected = b.payload 13 ∧ b.ckActual = b.payload 13 ∧
        b.reading = readingOf b.payload ∧ parityCheck b.payload = .ok ∧ ckOk b.payload = true
    | .parityFailed =>
      b.ckExpected = 0#8 ∧ b.ckActual = 0#8 ∧ b.reading = WeatherReading.zero ∧
        b.errCol.toNat ≤ 12 ∧ parityCheck b.payload = .fail b.errCol.toNat
    | .checksumFailed =>
      b.errCol = 0#4 ∧ b.ckExpected = b.payload 13 ∧ b.ckActual = ckActualW b.payload ∧
        b.ckExpected ≠ b.ckActual ∧ b.reading = WeatherReading.zero ∧ parityCheck b.payload = .ok

/-- A column holds: its two bytes are complements of each other (R92). -/
abbrev ColumnHolds (P : Payload) (col : Nat) : Prop := P col ^^^ P (col + 13) = 0xFF#8

/-- The first column that does not hold is `col` (R122). -/
abbrev FirstBadColumn (P : Payload) (col : Nat) : Prop :=
  col < 13 ∧ ¬ ColumnHolds P col ∧ ∀ d, d < col → ColumnHolds P d

/-- How many of the 96 bits of `P[14]` to `P[25]` are 1, counted bit by bit (R131). -/
def setBits (P : Payload) : Nat :=
  ((List.range 96).filter (fun n => (P (14 + n / 8)).getLsbD (n % 8))).length

/-- The nine fields of a reading are those the field table gives for a payload, written on integers: a
low nibble is the byte modulo 16, a high nibble the byte divided by 16 (R94, R190). -/
def WeatherReading.IsOf (r : WeatherReading) (P : Payload) : Prop :=
  r.sensorId = P 14 ∧
  r.tempMag.toNat = (P 20).toNat % 16 + 10 * ((P 20).toNat / 16) + 100 * ((P 21).toNat % 16) ∧
  r.tempNeg = decide ((P 25).toNat % 16 ≠ 0) ∧
  r.humidity.toNat = (P 22).toNat % 16 + 10 * ((P 22).toNat / 16) ∧
  r.windDirRaw.toNat = (P 17).toNat / 16 ∧
  r.windGustTenths.toNat = 256 * ((P 17).toNat % 16) + (P 16).toNat ∧
  r.windAvgTenths.toNat = (P 18).toNat % 16 + 10 * ((P 18).toNat / 16) + 100 * ((P 19).toNat % 16) ∧
  r.rainTenths.toNat = (P 23).toNat % 16 + 10 * ((P 23).toNat / 16) + 100 * ((P 24).toNat % 16) ∧
  r.batteryOk = decide ((P 25).toNat < 128)

/-- The nine reading registers and the three diagnostic registers are all 0. -/
def Block.ResultsCleared (b : Block) : Prop :=
  b.errCol = 0#4 ∧ b.ckExpected = 0#8 ∧ b.ckActual = 0#8 ∧ b.reading.sensorId = 0#8 ∧
    b.reading.tempMag = 0#11 ∧ b.reading.tempNeg = false ∧ b.reading.humidity = 0#8 ∧
    b.reading.windDirRaw = 0#4 ∧ b.reading.windGustTenths = 0#12 ∧ b.reading.windAvgTenths = 0#11 ∧
    b.reading.rainTenths = 0#11 ∧ b.reading.batteryOk = false

/-- Nothing outside the block differs: the host's inputs, the edge count, the output looked at. -/
def State.OutsideSame (s t : State) : Prop :=
  t.inputs = s.inputs ∧ t.edge = s.edge ∧ t.probe = s.probe

/-- The output ports show an outcome: what R195's table gives for each of the three, with the code of
`STATE` and the nine reading ports one by one (R28). -/
def Outputs.Shows (o : Outputs) : CallOutcome → Prop
  | .decoded r =>
    o.state = 4#3 ∧ o.result = 1#2 ∧ o.busy = false ∧ o.done = true ∧ o.readingValid = true ∧
      o.sensorId = r.sensorId ∧ o.tempMag = r.tempMag ∧ o.tempNeg = r.tempNeg ∧
      o.tempTenths = r.tempTenths ∧ o.humidity = r.humidity ∧ o.windDirRaw = r.windDirRaw ∧
      o.windGustTenths = r.windGustTenths ∧ o.windAvgTenths = r.windAvgTenths ∧
      o.rainTenths = r.rainTenths ∧ o.batteryOk = r.batteryOk
  | .parityError col =>
    o.state = 5#3 ∧ o.result = 2#2 ∧ o.busy = false ∧ o.done = true ∧ o.readingValid = false ∧
      o.errCol = col
  | .checksumError expected actual =>
    o.state = 6#3 ∧ o.result = 3#2 ∧ o.busy = false ∧ o.done = true ∧ o.readingValid = false ∧
      o.ckExpected = expected ∧ o.ckActual = actual

/-- The inputs at the coming edge are those of a conforming host: it raises `start` only in a resting
state and only with a frame whose raw byte 0 it has checked (R212, R224, R271). No claim about the block
alone assumes it. DESIGN CHOICE: at an edge with `rst` = 1, where `start` is not looked at (R260), the
duties of a call do not apply, whatever `start` and `frame_in` are (assumption 17). -/
def State.hostConforms (s : State) : Bool :=
  s.pins.rst || !s.pins.start || (restingState s.block.seq && hostMayCall s.pins.frameIn)

/-- The next state of an outcome, where it has one. -/
def nextOf : Host.Outcome State Fault Refusal → Option State
  | .next t => some t
  | .fault _ => none
  | .refused _ => none

/-- A step is safe where it answers a next state: no fault and no refusal. -/
def State.stepsSafely (s : State) : Bool := (nextOf (step s)).isSome

end Sys2Proof.Machine
end

