-- ==== Sys2Proof/Certificates/Slice0/Obligations.lean ====
section
/-! DEFINITION. The statements for the provers, in the order of the spec's rules: the operations of an
edge, the extractors and primitives, the whole call, the step, the encodings, the invariant, and the
laws the spec derives. Each docstring names the rules. -/

open Sys2Proof Sys2Proof.Machine

/-! ### The operations of an edge -/

/-- R260: after `RESET` every byte of `FB` is 0 and every output port is 0, whatever the state was and
whatever bits `start` and `state` the word holds; nothing outside the block changes. -/
def Obligations.ResetZeroesEveryRegister : Prop :=
  ∀ (start : Bool) (code : BitVec 3) (s : State), ∃ t, exec (.reset start code) s = .next t ∧
    t.block.seq = .idle ∧ (∀ a, t.block.fb.read a = 0#8) ∧ t.block.ResultsCleared ∧
    t.block.outputs.state = 0#3 ∧ t.block.outputs.result = 0#2 ∧ t.block.outputs.busy = false ∧
    t.block.outputs.done = false ∧ t.block.outputs.readingValid = false ∧
    t.block.outputs.tempTenths = 0#12 ∧ s.OutsideSame t

/-- R181: in a resting state `LOAD`, from `Idle` and from a terminal state, copies all 27 bytes of the
frame into `FB`, clears every result register and enters `Start`; nothing outside the block changes. -/
def Obligations.LoadCopiesFrameAndClears : Prop :=
  ∀ (src : SeqState) (frame : Frame) (i : Instr) (s : State),
    (i = .loadIdle frame ∨ i = .loadTerminal src frame) →
    s.block.seq ∈ [SeqState.idle, .decoded, .parityFailed, .checksumFailed] →
    ∃ t, exec i s = .next t ∧
      (∀ a, a < 27 → t.block.fb.read a = frame.extractLsb' (8 * a) 8) ∧
      (∀ a, 27 ≤ a → t.block.fb.read a = 0#8) ∧
      t.block.ResultsCleared ∧ t.block.seq = .start ∧ s.OutsideSame t

/-- R183: in a resting state `HOLD` writes nothing, and it is what the step performs there where `rst` and
`start` are 0: only the edge passes. -/
def Obligations.HoldWritesNothing : Prop :=
  ∀ (src : SeqState) (s : State),
    s.block.seq ∈ [SeqState.idle, .decoded, .parityFailed, .checksumFailed] →
    exec .holdIdle s = .next s ∧ exec (.holdTerminal src) s = .next s ∧
    (s.pins.rst = false → s.pins.start = false →
      step s = .next { s with inputs := s.inputs.tail, edge := s.edge + 1 })

/-- R184: in `Start`, `PARCHK` moves to `ParityChecked` where every column holds and changes nothing
else; where a column does not hold it records the first such column in `ERR_COL`, moves to
`ParityFailed` and changes nothing else. -/
def Obligations.ParchkVerdict : Prop :=
  ∀ (start : Bool) (s : State), s.block.seq = .start →
    ((∀ col, col < 13 → ColumnHolds s.block.payload col) →
      exec (.parchk start) s = .next { s with block := { s.block with seq := .parityChecked } }) ∧
    (∀ col, FirstBadColumn s.block.payload col →
      exec (.parchk start) s = .next { s with block :=
        { s.block with errCol := BitVec.ofNat 4 col, seq := .parityFailed } })

/-- R186: in `ParityChecked`, `CKSUM` records the declared byte `P[13]` and the number of 1 bits of
`P[14]` to `P[25]` and moves to `ChecksumChecked` where they are equal, to `ChecksumFailed` where they
differ; nothing else changes. -/
def Obligations.CksumVerdict : Prop :=
  ∀ (start : Bool) (s : State), s.block.seq = .parityChecked →
    ((s.block.payload 13).toNat = setBits s.block.payload →
      exec (.cksum start) s = .next { s with block :=
        { s.block with ckExpected := s.block.payload 13,
                       ckActual := BitVec.ofNat 8 (setBits s.block.payload),
                       seq := .checksumChecked } }) ∧
    ((s.block.payload 13).toNat ≠ setBits s.block.payload →
      exec (.cksum start) s = .next { s with block :=
        { s.block with ckExpected := s.block.payload 13,
                       ckActual := BitVec.ofNat 8 (setBits s.block.payload),
                       seq := .checksumFailed } })

/-- R190: in `ChecksumChecked`, `EXTRACT` writes the nine reading registers with the fields of the
payload, moves to `Decoded` and changes nothing else. -/
def Obligations.ExtractWritesTheReading : Prop :=
  ∀ (start : Bool) (s : State), s.block.seq = .checksumChecked →
    ∃ r : WeatherReading, r.IsOf s.block.payload ∧
      exec (.extract start) s = .next { s with block :=
        { s.block with reading := r, seq := .decoded } }

/-! ### Extractors and primitives -/

/-- R141, R143, R144, R145, R146: each output of the `bit_field_slicer` is the selection its rule
names. -/
def Obligations.SlicerOutputs : Prop :=
  ∀ P : Payload,
    (xSensorId P).toNat = (P 14).toNat ∧
    (xWindDirRaw P).toNat = (P 17).toNat / 16 ∧
    (xWindGust P).toNat = 256 * ((P 17).toNat % 16) + (P 16).toNat ∧
    (xBatteryOk P = true ↔ P 25 &&& 0x80#8 = 0#8) ∧
    (xTempNeg P = true ↔ (P 25).toNat % 16 ≠ 0)

/-- R162, R163, R164, R165, R168: each output of the `bcd_nibble_extractor` is the decimal combination
its rule names; the signed temperature is the negated magnitude where the sign nibble is nonzero. -/
def Obligations.DecimalOutputs : Prop :=
  ∀ P : Payload,
    (xTempMag P).toNat =
      (P 20).toNat % 16 + 10 * ((P 20).toNat / 16) + 100 * ((P 21).toNat % 16) ∧
    (xTempTenths P).toInt =
      (if (P 25).toNat % 16 ≠ 0 then -((xTempMag P).toNat : Int) else (xTempMag P).toNat) ∧
    (xHumidity P).toNat = (P 22).toNat % 16 + 10 * ((P 22).toNat / 16) ∧
    (xWindAvg P).toNat =
      (P 18).toNat % 16 + 10 * ((P 18).toNat / 16) + 100 * ((P 19).toNat % 16) ∧
    (xRain P).toNat =
      (P 23).toNat % 16 + 10 * ((P 23).toNat / 16) + 100 * ((P 24).toNat % 16)

/-- R147 to R150, R161, R134: the value of each primitive on integers. -/
def Obligations.PrimitiveValues : Prop :=
  (∀ (P : Payload) (k : Nat), k < 26 →
    byteAt P k = P k ∧ (lonib P k).toNat = (P k).toNat % 16 ∧
    (hinib P k).toNat = (P k).toNat / 16 ∧ (bit7 P k = true ↔ 128 ≤ (P k).toNat)) ∧
  (∀ d0 d1 d2 : Nibble, (bcd3Word d0 d1 d2).toNat = d0.toNat + 10 * d1.toNat + 100 * d2.toNat) ∧
  (∀ b : Byte, popcnt8 b = ((List.range 8).filter (fun i => b.getLsbD i)).length)

/-- The eight extractors complete in every state, show their output and write nothing of the block.
That the output is seen in the field `probe` is the model's choice (assumption 4); the values are those
of R141, R143, R144, R145, R162 to R165 and R168. -/
def Obligations.ExtractorsShowTheirOutput : Prop :=
  ∀ s : State,
    exec .xsid s = .next { s with probe := some (.xSensorId (xSensorId s.block.payload)) } ∧
    exec .xwdir s = .next { s with probe := some (.xWindDirRaw (xWindDirRaw s.block.payload)) } ∧
    exec .xgust s = .next { s with probe := some (.xWindGust (xWindGust s.block.payload)) } ∧
    exec .xbatt s = .next { s with probe := some (.xBatteryOk (xBatteryOk s.block.payload)) } ∧
    exec .xtemp s = .next { s with probe := some (.xTemp (xTempMag s.block.payload)
      (xTempNeg s.block.payload) (xTempTenths s.block.payload)) } ∧
    exec .xhum s = .next { s with probe := some (.xHumidity (xHumidity s.block.payload)) } ∧
    exec .xwavg s = .next { s with probe := some (.xWindAvg (xWindAvg s.block.payload)) } ∧
    exec .xrain s = .next { s with probe := some (.xRain (xRain s.block.payload)) }

/-- The six primitives complete in every state and for every operand, show their value and write nothing
of the block. That the value is seen in the field `probe` is the model's choice (assumption 4). -/
def Obligations.PrimitivesShowTheirValue : Prop :=
  ∀ (s : State) (k : Fin 26) (d0 d1 d2 : Nibble) (v : Byte),
    exec (.byte k) s = .next { s with probe := some (.byte (byteAt s.block.payload k)) } ∧
    exec (.lonib k) s = .next { s with probe := some (.lonib (lonib s.block.payload k)) } ∧
    exec (.hinib k) s = .next { s with probe := some (.hinib (hinib s.block.payload k)) } ∧
    exec (.bit7 k) s = .next { s with probe := some (.bit7 (bit7 s.block.payload k)) } ∧
    exec (.bcd3 d0 d1 d2) s = .next { s with probe := some (.bcd3 (bcd3Word d0 d1 d2)) } ∧
    exec (.popcnt8 v) s = .next { s with probe := some (.popcnt8 (popcnt8 v)) }

/-- R38, R163: for every value of the two registers, `temp_tenths` read as a two's complement number is
the magnitude, negated where `temp_neg` is set. -/
def Obligations.TempTenthsIsSignAndMagnitude : Prop :=
  ∀ r : WeatherReading,
    r.tempTenths.toInt = (if r.tempNeg then -(r.tempMag.toNat : Int) else r.tempMag.toNat)

/-- R36, R39, R42, R43, R131, R169: no sum overflows its register: every field of a reading is the exact
sum of the field table on unbounded integers, the signed temperature is the exact magnitude with its sign,
and the count is exact. So each stays in its range. -/
def Obligations.FieldsStayInRange : Prop :=
  ∀ P : Payload,
    (readingOf P).IsOf P ∧
    (readingOf P).tempTenths.toInt =
      (if (P 25).toNat % 16 ≠ 0 then
        -(((P 20).toNat % 16 + 10 * ((P 20).toNat / 16) + 100 * ((P 21).toNat % 16) : Nat) : Int)
      else ((P 20).toNat % 16 + 10 * ((P 20).toNat / 16) + 100 * ((P 21).toNat % 16) : Nat)) ∧
    (readingOf P).tempMag.toNat ≤ 1665 ∧ (readingOf P).humidity.toNat ≤ 165 ∧
    (readingOf P).windAvgTenths.toNat ≤ 1665 ∧ (readingOf P).rainTenths.toNat ≤ 1665 ∧
    (readingOf P).windGustTenths.toNat ≤ 4095 ∧ (readingOf P).windDirRaw.toNat ≤ 15 ∧
    -1665 ≤ (readingOf P).tempTenths.toInt ∧ (readingOf P).tempTenths.toInt ≤ 1665 ∧
    (ckActualW P).toNat = setBits P ∧ setBits P ≤ 96

/-! ### The whole call -/

/-- R194: the function `decode`, case by case: the first column that does not hold; else the two counts
where they differ; else the reading with the fields of the payload. `decode_raw` is `decode` of raw bytes
1 to 26. -/
def Obligations.DecodeFunctionByCases : Prop :=
  (∀ P : Payload,
    (∀ col, FirstBadColumn P col → decodePayload P = .parityError (BitVec.ofNat 4 col)) ∧
    ((∀ col, col < 13 → ColumnHolds P col) →
      ((P 13).toNat ≠ setBits P →
        decodePayload P = .checksumError (P 13) (BitVec.ofNat 8 (setBits P))) ∧
      ((P 13).toNat = setBits P → ∃ r, decodePayload P = .decoded r ∧ r.IsOf P))) ∧
  ∀ frame : Frame, decodeRaw frame = decodePayload (fun k => frame.extractLsb' (8 * (k + 1)) 8)

/-- R103: `DECODE` is `LOAD; PARCHK; [CKSUM; [EXTRACT]]`, `CKSUM` performed only where `PARCHK` succeeded
and `EXTRACT` only where `CKSUM` succeeded. It stands for edges with `rst` low, and its start from
every state is the model's choice (assumptions 5, 6). -/
def Obligations.DecodeIsItsExpansion : Prop :=
  ∀ (frame : Frame) (start : Bool) (s : State), ∃ t1 t2,
    exec (.loadIdle frame) s = .next t1 ∧ exec (.parchk start) t1 = .next t2 ∧
    ((t2.block.seq = .parityFailed ∧ exec (.decode frame) s = .next t2) ∨
      (t2.block.seq = .parityChecked ∧ ∃ t3, exec (.cksum start) t2 = .next t3 ∧
        ((t3.block.seq = .checksumFailed ∧ exec (.decode frame) s = .next t3) ∨
          (t3.block.seq = .checksumChecked ∧ ∃ t4, exec (.extract start) t3 = .next t4 ∧
            t4.block.seq = .decoded ∧ exec (.decode frame) s = .next t4))))

/-- `DECODE` completes in every state for every frame (also one whose raw byte 0 is not `0xD4`): the
block then holds the frame, its outcome is `decode_raw(frame)`, every output port that belongs to that
outcome shows it (R28, R195), and nothing outside the block changes. Its start from every state is the
model's choice (assumptions 5, 6). -/
def Obligations.DecodeShowsDecodeRaw : Prop :=
  ∀ (frame : Frame) (s : State), ∃ t, exec (.decode frame) s = .next t ∧
    t.block.outcome? = some (decodeRaw frame) ∧ t.block.outputs.Shows (decodeRaw frame) ∧
    (∀ a, t.block.fb.read a = frame.extractLsb' (8 * a) 8) ∧ s.OutsideSame t

/-- R14, R195: from every resting state that accepts a `start` with a frame, with `rst` low at the next
three edges and `start` and `frame_in` anything at them, the block is busy until the edge after which its
outcome is `decode_raw` of the frame and its output ports show it. That this is one edge after the
accepting one for a parity error, two for a checksum error, three for a reading is R193 and R275, which
rest on the spec's own decision D16 (assumption 14). -/
def Obligations.CallComputesDecode : Prop :=
  ∀ (s : State) (frame : Frame) (p1 p2 p3 : Inputs) (rest : List Inputs),
    restingState s.block.seq = true →
    s.inputs = ⟨false, true, frame⟩ :: p1 :: p2 :: p3 :: rest →
    p1.rst = false → p2.rst = false → p3.rst = false →
    ∃ n t,
      n = (match decodeRaw frame with
        | .parityError _ => 1
        | .checksumError _ _ => 2
        | .decoded _ => 3) ∧
      Host.Core.run core (n + 1) s = .next t ∧ doneOf t.block.seq = true ∧
      t.block.outcome? = some (decodeRaw frame) ∧ t.block.outputs.Shows (decodeRaw frame) ∧
      ∀ m u, m < n → Host.Core.run core (m + 1) s = .next u → busyOf u.block.seq = true

/-- R217, R218: the call protocol. From every resting state, `start` with a frame over one edge and then
`start` low for three edges leave the block with the outcome `decode_raw` of the frame to read. -/
def Obligations.CallProtocolDelivers : Prop :=
  ∀ (s : State) (raw x1 x2 x3 : Frame) (rest : List Inputs),
    restingState s.block.seq = true → s.inputs = callInputs raw x1 x2 x3 ++ rest →
    ∃ t, Host.Core.run core 4 s = .next t ∧ t.block.outcome? = some (decodeRaw raw) ∧
      t.inputs = rest

/-- R193: from `Start`, with `rst` low at the next three edges, the call reaches `ParityFailed` after one
step, `ChecksumFailed` after two or `Decoded` after three. -/
def Obligations.CallEndsWithinThreeSteps : Prop :=
  ∀ (s : State) (p1 p2 p3 : Inputs) (rest : List Inputs), s.block.seq = .start →
    s.inputs = p1 :: p2 :: p3 :: rest → p1.rst = false → p2.rst = false → p3.rst = false →
    (∃ t, Host.Core.run core 1 s = .next t ∧ t.block.seq = .parityFailed) ∨
    (∃ t, Host.Core.run core 2 s = .next t ∧ t.block.seq = .checksumFailed) ∨
    (∃ t, Host.Core.run core 3 s = .next t ∧ t.block.seq = .decoded)

/-- R196: nothing of the state before an accepted `start` can be seen after it. Two machines in any
resting states, given the same inputs from the accepting edge on, hold the same block after every number
of edges that the inputs reach. -/
def Obligations.CallForgetsThePast : Prop :=
  ∀ (n : Nat) (s1 s2 : State) (p : Inputs) (rest : List Inputs),
    restingState s1.block.seq = true → restingState s2.block.seq = true →
    s1.inputs = p :: rest → s2.inputs = p :: rest → p.rst = false → p.start = true →
    n ≤ rest.length →
    ∃ t1 t2, Host.Core.run core (n + 1) s1 = .next t1 ∧ Host.Core.run core (n + 1) s2 = .next t2 ∧
      t1.block = t2.block

/-- R62: two frames that differ only in raw byte 0 have the same outcome. -/
def Obligations.SyncByteIsNotRead : Prop :=
  ∀ (frame : Frame) (b : Byte),
    decodeRaw ((frame.extractLsb' 8 208 ++ b : BitVec (208 + 8))) = decodeRaw frame

/-- R185, R235: a parity failure comes first. In every state of the invariant in `Start` whose payload has
a column that does not hold, whatever its checksum, `PARCHK` ends the call in `ParityFailed` with both
counts 0 and every reading register 0. -/
def Obligations.ParityErrorComesFirst : Prop :=
  ∀ (start : Bool) (s : State) (col : Nat), s.block.Inv → s.block.seq = .start →
    FirstBadColumn s.block.payload col →
    ∃ t, exec (.parchk start) s = .next t ∧
      t.block.outcome? = some (.parityError (BitVec.ofNat 4 col)) ∧
      t.block.errCol.toNat = col ∧ t.block.ckExpected = 0#8 ∧ t.block.ckActual = 0#8 ∧
      t.block.reading = WeatherReading.zero ∧ t.block.reading? = none

/-! ### The step -/

/-- A step runs the decoded instruction: where the bytes at the ports decode to an instruction, the step
is the meaning of that instruction, and then the edge passes: its inputs are dropped from the front of
the host's line and the edge count grows by one. -/
def Obligations.StepRunsTheDecodedInstruction : Prop :=
  ∀ (s t : State) (i : Instr) (rest : List Byte),
    decodeBytes (fetch s) = .ok (i, rest) → exec i s = .next t →
    step s = .next { t with inputs := t.inputs.tail, edge := t.edge + 1 }

/-- R180: which operation an edge performs, by `rst`, `start` and `STATE`. -/
def Obligations.StepPerformsTheSelectedOperation : Prop :=
  ∀ s : State, ∃ i t, exec i s = .next t ∧
    step s = .next { t with inputs := s.inputs.tail, edge := s.edge + 1 } ∧
    i = (if s.pins.rst then .reset s.pins.start s.block.seq.code
      else match s.block.seq with
        | .idle => if s.pins.start then .loadIdle s.pins.frameIn else .holdIdle
        | .decoded =>
          if s.pins.start then .loadTerminal .decoded s.pins.frameIn else .holdTerminal .decoded
        | .parityFailed =>
          if s.pins.start then .loadTerminal .parityFailed s.pins.frameIn
          else .holdTerminal .parityFailed
        | .checksumFailed =>
          if s.pins.start then .loadTerminal .checksumFailed s.pins.frameIn
          else .holdTerminal .checksumFailed
        | .start => .parchk s.pins.start
        | .parityChecked => .cksum s.pins.start
        | .checksumChecked => .extract s.pins.start)

/-- R13, R105, R234: from every state a step answers a next state; the block has no fault and no refusal
of its own. -/
def Obligations.EveryStepAnswers : Prop :=
  ∀ s : State, ∃ t, step s = .next t ∧ t.inputs = s.inputs.tail ∧ t.edge = s.edge + 1 ∧
    t.probe = s.probe

/-- R23: how each operation advances `STATE`. -/
def Obligations.StateTransitionTable : Prop :=
  ∀ s t : State, step s = .next t →
    (s.pins.rst = true → t.block.seq = .idle) ∧
    (s.pins.rst = false →
      (s.block.seq ∈ [SeqState.idle, .decoded, .parityFailed, .checksumFailed] →
        (s.pins.start = true → t.block.seq = .start) ∧
        (s.pins.start = false → t.block.seq = s.block.seq)) ∧
      (s.block.seq = .start →
        ((∀ col, col < 13 → ColumnHolds s.block.payload col) → t.block.seq = .parityChecked) ∧
        ((∃ col, col < 13 ∧ ¬ ColumnHolds s.block.payload col) → t.block.seq = .parityFailed)) ∧
      (s.block.seq = .parityChecked →
        ((s.block.payload 13).toNat = setBits s.block.payload → t.block.seq = .checksumChecked) ∧
        ((s.block.payload 13).toNat ≠ setBits s.block.payload → t.block.seq = .checksumFailed)) ∧
      (s.block.seq = .checksumChecked → t.block.seq = .decoded))

/-- R261: while `rst` is held high, at any number of edges, the block stays at its reset values, whatever
`start`, `frame_in` and `STATE` are. -/
def Obligations.HeldResetKeepsResetValues : Prop :=
  ∀ (n : Nat) (s : State), n + 1 ≤ s.inputs.length →
    (∀ p, p ∈ s.inputs.take (n + 1) → p.rst = true) →
    ∃ t, Host.Core.run core (n + 1) s = .next t ∧ t.block = Block.atReset

/-- R188: a terminal state is held, with every register, for any number of edges at which `rst` and
`start` are low. -/
def Obligations.TerminalStatesHold : Prop :=
  ∀ (n : Nat) (s : State), doneOf s.block.seq = true → n ≤ s.inputs.length →
    (∀ p, p ∈ s.inputs.take n → p.rst = false ∧ p.start = false) →
    ∃ t, Host.Core.run core n s = .next t ∧ t.block = s.block

/-- R189: `start` in a busy state is ignored: the step is the same whatever `start` is. With `rst` low it is
`PARCHK` in `Start`, `CKSUM` in `ParityChecked` and `EXTRACT` in `ChecksumChecked`, and it leaves every byte
of `FB` as it was. -/
def Obligations.StartIsIgnoredWhileBusy : Prop :=
  ∀ (s : State) (p : Inputs) (b : Bool), busyOf s.block.seq = true →
    step (s.setPins { p with start := b }) = step (s.setPins p) ∧
    (p.rst = false → ∃ i t, exec i (s.setPins p) = .next t ∧
      step (s.setPins p) = .next { t with inputs := s.inputs.tail, edge := s.edge + 1 } ∧
      (s.block.seq = .start → i = .parchk p.start) ∧
      (s.block.seq = .parityChecked → i = .cksum p.start) ∧
      (s.block.seq = .checksumChecked → i = .extract p.start) ∧
      ∀ a, t.block.fb.read a = s.block.fb.read a)

/-- R61: at an edge that does not accept a `start`, the value of `frame_in` has no effect. -/
def Obligations.FrameInIsReadByLoadOnly : Prop :=
  ∀ (s : State) (p : Inputs) (f : Frame),
    (p.rst = true ∨ p.start = false ∨ busyOf s.block.seq = true) →
    step (s.setPins { p with frameIn := f }) = step (s.setPins p)

/-- R47 (the column "written by"), R68: which instruction may change which register. `DECODE` stands for
the four operations of a call (R103). -/
def Obligations.RegistersAreWrittenByTheirOperations : Prop :=
  ∀ (i : Instr) (s t : State), exec i s = .next t →
    (i.mnemonic ∉ ["RESET", "LOAD", "DECODE"] → ∀ a, t.block.fb.read a = s.block.fb.read a) ∧
    (i.mnemonic ∉ ["RESET", "LOAD", "PARCHK", "DECODE"] → t.block.errCol = s.block.errCol) ∧
    (i.mnemonic ∉ ["RESET", "LOAD", "CKSUM", "DECODE"] →
      t.block.ckExpected = s.block.ckExpected ∧ t.block.ckActual = s.block.ckActual) ∧
    (i.mnemonic ∉ ["RESET", "LOAD", "EXTRACT", "DECODE"] → t.block.reading = s.block.reading) ∧
    (i.mnemonic ∉ ["RESET", "LOAD", "PARCHK", "CKSUM", "EXTRACT", "DECODE"] →
      t.block = s.block)

/-- No instruction touches the host's line of inputs or the edge count, and only the extractors and the
primitives touch the output looked at (the model's own fields, assumptions 2 and 4). -/
def Obligations.OperationsKeepTheModelsOwnFields : Prop :=
  ∀ (i : Instr) (s t : State), exec i s = .next t →
    t.inputs = s.inputs ∧ t.edge = s.edge ∧
    (i.mnemonic ∈ ["RESET", "LOAD", "HOLD", "PARCHK", "CKSUM", "EXTRACT", "DECODE"] →
      t.probe = s.probe)

/-- R234: nothing but `PARCHK` enters `ParityFailed`, nothing but `CKSUM` enters `ChecksumFailed` and
nothing but `EXTRACT` enters `Decoded`; `DECODE` stands for the operations of a call. -/
def Obligations.OnlyTheChecksRaise : Prop :=
  ∀ (i : Instr) (s t : State), exec i s = .next t →
    (t.block.seq = .parityFailed → s.block.seq ≠ .parityFailed →
      i.mnemonic ∈ ["PARCHK", "DECODE"]) ∧
    (t.block.seq = .checksumFailed → s.block.seq ≠ .checksumFailed →
      i.mnemonic ∈ ["CKSUM", "DECODE"]) ∧
    (t.block.seq = .decoded → s.block.seq ≠ .decoded → i.mnemonic ∈ ["EXTRACT", "DECODE"])

/-! ### Encodings -/

/-- Decoding the word of a well-formed instruction gives the instruction back, with every operand at
every value, and leaves the bytes that follow. -/
def Obligations.DecodeOfEncode : Prop :=
  ∀ (i : Instr) (fmt : Format) (w rest : List Byte), i.WellFormed → encode i = some (fmt, w) →
    decodeAs fmt (w ++ rest) = .ok (i, rest)

/-- Whatever decodes is the word of the instruction it decodes to, and that instruction is well-formed:
no two words decode to one instruction. -/
def Obligations.EncodeOfDecode : Prop :=
  ∀ (fmt : Format) (bs rest : List Byte) (i : Instr), decodeAs fmt bs = .ok (i, rest) →
    i.WellFormed ∧ ∃ w, encode i = some (fmt, w) ∧ bs = w ++ rest

/-- R98, R108: over the five bits `{rst, start, state[2:0]}`, exactly one row matches a word whose code is
not the reserved one or whose `rst` is 1, and the decoder gives that row's instruction; a word with `rst`
0 and code 7 is rejected by name. -/
def Obligations.OperationMapMatchesTheTable : Prop :=
  ∀ (w : BitVec 5) (frame : Frame),
    ((w.getLsbD 4 = true ∨ w.extractLsb' 0 3 ≠ 7#3) →
      ∃ i rest, decodeBytes (w.setWidth 8 :: Frame.bytes frame) = .ok (i, rest) ∧
        rowsOf w = [i.mnemonic]) ∧
    (w.getLsbD 4 = false → w.extractLsb' 0 3 = 7#3 →
      decodeBytes (w.setWidth 8 :: Frame.bytes frame) = .error .reservedState)

/-- Nine words written out from the operation map (R98) and from the frame pattern of `DECODE` decode to the
operations they stand for, and the word of the reserved code 7 is rejected (R108). The layout of the bytes
(assumption 3) and the rejection by name (assumption 10) are the model's. -/
def Obligations.SampleWordsDecode : Prop :=
  decodeBytes [0b00010000#8] = .ok (.reset false 0#3, []) ∧
  decodeBytes [0b00000000#8] = .ok (.holdIdle, []) ∧
  decodeBytes [0b00000101#8] = .ok (.holdTerminal .parityFailed, []) ∧
  decodeBytes [0b00001001#8] = .ok (.parchk true, []) ∧
  decodeBytes [0b00000010#8] = .ok (.cksum false, []) ∧
  decodeBytes [0b00000011#8] = .ok (.extract false, []) ∧
  decodeBytes [0b00000111#8] = .error .reservedState ∧
  decodeBytes (0b00001000#8 :: List.replicate 27 0#8) = .ok (.loadIdle 0#216, []) ∧
  decodeBytes (0b00001110#8 :: List.replicate 27 0#8) =
    .ok (.loadTerminal .checksumFailed 0#216, []) ∧
  decodeFrame27 (0xD4#8 :: List.replicate 26 0#8) = .ok (.decode 0xD4#216, [])

/-- R95: the codes of `STATE` are 0 to 6 in the order of the table and are read back, code 7 stands for no
state, bit 2 is `done`, and `busy` is bit 2 clear and the code nonzero. -/
def Obligations.StateCodes : Prop :=
  [SeqState.idle, .start, .parityChecked, .checksumChecked, .decoded, .parityFailed,
    .checksumFailed].map SeqState.code = [0#3, 1#3, 2#3, 3#3, 4#3, 5#3, 6#3] ∧
  (∀ q : SeqState, SeqState.ofCode? q.code = some q ∧ doneOf q = q.code.getLsbD 2 ∧
    busyOf q = (!q.code.getLsbD 2 && q.code != 0#3)) ∧
  SeqState.ofCode? 7#3 = none

/-- R24, R25: the flags by state: `busy` and `done` are never both 1, `reading_valid` implies `done`, and
`result` is 0 exactly where `done` is 0. -/
def Obligations.StatusFlagsByState : Prop :=
  ∀ q : SeqState,
    (busyOf q = true ↔ q = .start ∨ q = .parityChecked ∨ q = .checksumChecked) ∧
    (doneOf q = true ↔ q = .decoded ∨ q = .parityFailed ∨ q = .checksumFailed) ∧
    (readingValidOf q = true ↔ q = .decoded) ∧ (resultOf q = 1#2 ↔ q = .decoded) ∧
    (resultOf q = 2#2 ↔ q = .parityFailed) ∧ (resultOf q = 3#2 ↔ q = .checksumFailed) ∧
    (resultOf q = 0#2 ↔ doneOf q = false)

/-! ### Invariants -/

/-- R192: every step keeps the invariant of the block, from every state that has it. -/
def Obligations.StepKeepsTheInvariant : Prop :=
  ∀ s t : State, s.block.Inv → step s = .next t → t.block.Inv

/-- The state after reset has the invariant. -/
def Obligations.ResetHasTheInvariant : Prop := State.reset.block.Inv

/-- Every instruction keeps the canonical form of the frame buffer. The form is the model's choice
(assumption 8). -/
def Obligations.FrameBufferFormIsKept : Prop :=
  ∀ (i : Instr) (s t : State), s.block.fb.wf = true → exec i s = .next t → t.block.fb.wf = true

/-- R34, R33, R190, R192: a reading exists exactly in `Decoded`, where it is the fields of the payload; in
every other state of the invariant the nine reading registers are all 0. -/
def Obligations.ReadingExistsOnlyWhenDecoded : Prop :=
  ∀ b : Block, b.Inv →
    (b.seq = .decoded → b.reading? = some b.reading ∧ b.reading.IsOf b.payload) ∧
    (b.seq ≠ .decoded → b.reading? = none ∧ b.reading = WeatherReading.zero)

/-- R30, R31, R32, R236: what the three diagnostic registers hold in each state of the invariant. -/
def Obligations.DiagnosticRegistersByState : Prop :=
  ∀ b : Block, b.Inv →
    (b.seq ≠ .parityFailed → b.errCol = 0#4) ∧
    (b.seq = .parityFailed → FirstBadColumn b.payload b.errCol.toNat) ∧
    (b.seq ∈ [SeqState.idle, .start, .parityChecked, .parityFailed] →
      b.ckExpected = 0#8 ∧ b.ckActual = 0#8) ∧
    (b.seq ∈ [SeqState.checksumChecked, .decoded, .checksumFailed] → b.ckExpected = b.payload 13) ∧
    (b.seq ∈ [SeqState.checksumChecked, .decoded] → b.ckActual = b.ckExpected) ∧
    (b.seq ∈ [SeqState.checksumChecked, .decoded, .checksumFailed] →
      b.ckActual.toNat = setBits b.payload) ∧
    (b.seq = .checksumFailed → b.ckActual ≠ b.ckExpected) ∧
    b.ckActual.toNat ≤ 96

/-! ### The laws the spec derives -/

/-- R124 law 2: exchanging the two bytes of every column changes nothing. -/
def Obligations.ParityIsSymmetric : Prop :=
  ∀ P : Payload, parityCheck (fun k => if k < 13 then P (k + 13) else P (k - 13)) = parityCheck P

/-- R124 law 3: where parity holds, flipping one bit of payload byte `j` fails it at column `j mod 13`.
Bit `n` of the frame is in payload byte `n / 8 - 1`. -/
def Obligations.SingleBitFlipFailsParity : Prop :=
  ∀ (frame : Frame) (n : Nat), 8 ≤ n → n < 216 →
    parityCheck (Frame.payload frame) = .ok →
    parityCheck (Frame.payload (frame ^^^ 1#216 <<< n)) = .fail ((n / 8 - 1) % 13)

/-- R136 law 1: where the checksum holds, flipping one bit of `P[14]` to `P[25]` changes the count by
exactly 1 and fails it. -/
def Obligations.SingleBitFlipFailsChecksum : Prop :=
  ∀ (frame : Frame) (n : Nat), 120 ≤ n → n < 216 → ckOk (Frame.payload frame) = true →
    ckOk (Frame.payload (frame ^^^ 1#216 <<< n)) = false ∧
    (bitCount (Frame.payload (frame ^^^ 1#216 <<< n)) = bitCount (Frame.payload frame) + 1 ∨
      bitCount (Frame.payload (frame ^^^ 1#216 <<< n)) + 1 = bitCount (Frame.payload frame))

/-- R124 law 4, R136 law 5: flipping the same bit in both bytes of a column is invisible to the parity
check and always fails the checksum. -/
def Obligations.MirroredFlipIsCaughtByTheChecksum : Prop :=
  ∀ (frame : Frame) (n : Nat), 8 ≤ n → n < 112 →
    parityCheck (Frame.payload (frame ^^^ 1#216 <<< n ^^^ 1#216 <<< (n + 104))) =
      parityCheck (Frame.payload frame) ∧
    (ckOk (Frame.payload frame) = true →
      ckOk (Frame.payload (frame ^^^ 1#216 <<< n ^^^ 1#216 <<< (n + 104))) = false)

/-- R93, R133: a declared checksum above 96 never passes, whatever the data: no such payload decodes to a
reading. -/
def Obligations.DeclaredAbove96NeverPasses : Prop :=
  ∀ (P : Payload) (r : WeatherReading), 96 < (P 13).toNat → decodePayload P ≠ .decoded r

/-- R110: the frame built from twelve data bytes decodes, and to the fields of those bytes. -/
def Obligations.EncodedFrameDecodes : Prop :=
  ∀ d : BitVec 96, ∃ r, decodeRaw (encodeFrame d) = .decoded r ∧
    r.IsOf (Frame.payload (encodeFrame d)) ∧ hostMayCall (encodeFrame d) = true ∧
    ∀ j, j < 12 → Frame.payload (encodeFrame d) (14 + j) = d.extractLsb' (8 * j) 8

/-- R110: accepted frames and blocks of twelve data bytes correspond one to one: every block's encoded frame
has the synchronisation byte and decodes, and every frame with the synchronisation byte that decodes is the
encoded frame of exactly one block. That `D[0]` is the lowest byte of the block is the model's choice
(assumption 12). -/
def Obligations.AcceptedFramesAreEncodedFrames : Prop :=
  (∀ d : BitVec 96, hostMayCall (encodeFrame d) = true ∧ ∃ r, decodeRaw (encodeFrame d) = .decoded r) ∧
  ∀ (frame : Frame) (r : WeatherReading), hostMayCall frame = true →
    decodeRaw frame = .decoded r → ∃! d : BitVec 96, frame = encodeFrame d

/-- R166: the physical value of each field of a reading, as a rational. -/
def Obligations.PhysicalValues : Prop :=
  ∀ r : WeatherReading,
    r.temperatureCelsius = (r.temperatureTenths : ℚ) / 10 ∧
    r.humidityPercent = r.humidity.toNat ∧
    r.windDirectionDegrees = (r.windDirRaw.toNat : ℚ) * 45 / 2 ∧
    r.windGustMetersPerSec = (r.windGustTenths.toNat : ℚ) / 10 ∧
    r.windAvgMetersPerSec = (r.windAvgTenths.toNat : ℚ) / 10 ∧
    r.rainMillimeters = (r.rainTenths.toNat : ℚ) / 10

/-! ### The host's contract -/

/-- R212, R216, R222, R242: the host makes a call only with raw byte 0 equal to `0xD4`; the interrupt is
enabled by re-arming the receiver and only sets the packet-ready flag; the loop only clears it and re-arms
the receiver before it processes; a set during a decode is not lost, and two packets arriving during one
decode are seen as one flag. That the interrupt leaves the receiver armed, and that the loop changes nothing
where it does not go on to process, are the model's (assumption 11). -/
def Obligations.HostDutiesAndFlag : Prop :=
  (∀ raw : Frame, hostMayCall raw = true ↔ raw.extractLsb' 0 8 = 0xD4#8) ∧
  (∀ h : HostState, h.rearm.armed = true ∧ h.rearm.packetReady = h.packetReady ∧
    h.rearm.sensorFilter = h.sensorFilter) ∧
  (∀ h : HostState, (h.armed = true → h.interrupt.packetReady = true) ∧
    (h.armed = false → h.interrupt = h) ∧ h.interrupt.interrupt = h.interrupt ∧
    h.interrupt.armed = h.armed ∧ h.interrupt.sensorFilter = h.sensorFilter) ∧
  (∀ (h : HostState) (c : Bool),
    (h.poll c).1 = (h.packetReady && c) ∧
    ((h.poll c).1 = true → (h.poll c).2.packetReady = false ∧ (h.poll c).2.armed = true ∧
      ((h.poll c).2.interrupt.poll c).1 = true) ∧
    ((h.poll c).1 = false → (h.poll c).2 = h) ∧
    (h.poll c).2.sensorFilter = h.sensorFilter)
end

