-- ==== Sys2Proof/Laws/State.lean ====
section
/-! SUPPORT. One lemma for each field of the state under each named update, true by `rfl`; that the ports
show the outcome a block holds; and what the host's own operations can do. -/

namespace Sys2Proof.Machine

-- One theorem at a time: each theorem still being checked would hold a thread.
set_option Elab.async false

variable (s : State) (b : Block) (v : Signal) (p : Inputs) (q : SeqState)

@[simp] theorem State.setBlock_block : (s.setBlock b).block = b := rfl
@[simp] theorem State.setBlock_inputs : (s.setBlock b).inputs = s.inputs := rfl
@[simp] theorem State.setBlock_edge : (s.setBlock b).edge = s.edge := rfl
@[simp] theorem State.setBlock_probe : (s.setBlock b).probe = s.probe := rfl
@[simp] theorem State.setBlock_pins : (s.setBlock b).pins = s.pins := rfl

@[simp] theorem State.setBlock_setBlock (c : Block) : (s.setBlock b).setBlock c = s.setBlock c := rfl

@[simp] theorem State.look_block : (s.look v).block = s.block := rfl
@[simp] theorem State.look_inputs : (s.look v).inputs = s.inputs := rfl
@[simp] theorem State.look_edge : (s.look v).edge = s.edge := rfl
@[simp] theorem State.look_probe : (s.look v).probe = some v := rfl

@[simp] theorem State.advance_block : s.advance.block = s.block := rfl
@[simp] theorem State.advance_inputs : s.advance.inputs = s.inputs.tail := rfl
@[simp] theorem State.advance_edge : s.advance.edge = s.edge + 1 := rfl
@[simp] theorem State.advance_probe : s.advance.probe = s.probe := rfl

@[simp] theorem State.setPins_block : (s.setPins p).block = s.block := rfl
@[simp] theorem State.setPins_inputs : (s.setPins p).inputs = p :: s.inputs.tail := rfl
@[simp] theorem State.setPins_edge : (s.setPins p).edge = s.edge := rfl
@[simp] theorem State.setPins_probe : (s.setPins p).probe = s.probe := rfl
@[simp] theorem State.setPins_pins : (s.setPins p).pins = p := rfl

@[simp] theorem State.setSeq_block : (s.setSeq q).block = { s.block with seq := q } := rfl
@[simp] theorem State.setSeq_inputs : (s.setSeq q).inputs = s.inputs := rfl
@[simp] theorem State.setSeq_edge : (s.setSeq q).edge = s.edge := rfl
@[simp] theorem State.setSeq_probe : (s.setSeq q).probe = s.probe := rfl
@[simp] theorem State.setSeq_pins : (s.setSeq q).pins = s.pins := rfl

theorem State.pins_of_inputs {s : State} {p : Inputs} {rest : List Inputs}
    (h : s.inputs = p :: rest) : s.pins = p := by
  simp [State.pins, h]

@[simp] theorem Block.raise_fb (e : CallError) : (b.raise e).fb = b.fb := by cases e <;> rfl
@[simp] theorem Block.raise_reading (e : CallError) : (b.raise e).reading = b.reading := by
  cases e <;> rfl

/-- A block that holds an outcome shows it on its ports. -/
theorem Block.shows_of_outcome {b : Block} {o : CallOutcome} (h : b.outcome? = some o) :
    b.outputs.Shows o := by
  cases hq : b.seq <;> simp [Block.outcome?, hq] at h <;> subst h <;>
    simp [Outputs.Shows, Block.outputs, hq, SeqState.code, resultOf, busyOf, doneOf, readingValidOf]

variable (h : HostState)

@[simp] theorem HostState.rearm_armed : h.rearm.armed = true := rfl
@[simp] theorem HostState.rearm_packetReady : h.rearm.packetReady = h.packetReady := rfl
@[simp] theorem HostState.rearm_sensorFilter : h.rearm.sensorFilter = h.sensorFilter := rfl

/-- All that an arriving packet can do. -/
theorem HostState.interrupt_cases :
    (h.armed = true ∧ h.interrupt = { h with packetReady := true }) ∨
      (h.armed = false ∧ h.interrupt = h) := by
  cases e : h.armed <;> simp [HostState.interrupt, e]

/-- All that one look of the polling loop can do. -/
theorem HostState.poll_cases (c : Bool) :
    (h.packetReady = true ∧ c = true ∧
        h.poll c = (true, { h with packetReady := false, armed := true })) ∨
      ((h.packetReady && c) = false ∧ h.poll c = (false, h)) := by
  cases e : h.packetReady <;> cases c <;> simp [HostState.poll, HostState.rearm, e]

variable (col : BitVec 4) (x y : Byte)

@[simp] theorem Block.raise_parity_seq :
    (b.raise (.parityError col)).seq = .parityFailed := rfl
@[simp] theorem Block.raise_parity_errCol : (b.raise (.parityError col)).errCol = col := rfl
@[simp] theorem Block.raise_parity_ckExpected :
    (b.raise (.parityError col)).ckExpected = b.ckExpected := rfl
@[simp] theorem Block.raise_parity_ckActual :
    (b.raise (.parityError col)).ckActual = b.ckActual := rfl
@[simp] theorem Block.raise_checksum_seq :
    (b.raise (.checksumError x y)).seq = .checksumFailed := rfl
@[simp] theorem Block.raise_checksum_errCol :
    (b.raise (.checksumError x y)).errCol = b.errCol := rfl
@[simp] theorem Block.raise_checksum_ckExpected :
    (b.raise (.checksumError x y)).ckExpected = x := rfl
@[simp] theorem Block.raise_checksum_ckActual :
    (b.raise (.checksumError x y)).ckActual = y := rfl

@[simp] theorem nextOf_next (t : State) : nextOf (.next t) = some t := rfl
@[simp] theorem nextOf_fault (r : Fault) : nextOf (.fault r) = none := rfl
@[simp] theorem nextOf_refused (r : Refusal) : nextOf (.refused r) = none := rfl

end Sys2Proof.Machine
end

