-- ==== Sys2Proof/Laws/Memory.lean ====
section
/-! SUPPORT. The laws of the frame buffer: a read after a write, the canonical form kept by every
operation, equal canonical buffers are equal data, and what the whole copy of a frame reads as. -/

namespace Sys2Proof.Machine

-- One theorem at a time: each theorem still being checked would hold a thread.
set_option Elab.async false

/-- An index below every listed one reads as an unlisted index does. -/
theorem Memory.lookup_below {cs : List Host.Cell} {lo x : Nat} (h : Memory.wfFrom lo cs = true)
    (hx : x < lo) : Memory.lookup x cs = Memory.unlisted := by
  induction cs generalizing lo with
  | nil => rfl
  | cons c cs ih =>
    obtain ⟨a, w⟩ := c
    simp only [Memory.wfFrom, Bool.and_eq_true, decide_eq_true_eq] at h
    have hne : a ≠ x := by omega
    simp [Memory.lookup, hne, ih h.2 (by omega)]

/-- The lower bound of a canonical list may be lowered. -/
theorem Memory.wfFrom_mono {cs : List Host.Cell} {lo lo' : Nat} (hl : lo' ≤ lo)
    (h : Memory.wfFrom lo cs = true) : Memory.wfFrom lo' cs = true := by
  cases cs with
  | nil => rfl
  | cons c cs =>
    simp only [Memory.wfFrom, Bool.and_eq_true, decide_eq_true_eq] at h ⊢
    exact ⟨⟨⟨by omega, h.1.1.2⟩, h.1.2⟩, h.2⟩

theorem Memory.lookup_put (x : Nat) (v : Byte) (cs : List Host.Cell) (lo : Nat)
    (h : Memory.wfFrom lo cs = true) (y : Nat) :
    Memory.lookup y (Memory.put x v cs) = if x = y then v else Memory.lookup y cs := by
  induction cs generalizing lo with
  | nil =>
    by_cases hv : v = Memory.unlisted <;> simp [Memory.put, Memory.lookup, hv]
  | cons c cs ih =>
    obtain ⟨a, w⟩ := c
    simp only [Memory.wfFrom, Bool.and_eq_true, decide_eq_true_eq, bne_iff_ne] at h
    obtain ⟨⟨⟨hlo, ha⟩, hw⟩, hcs⟩ := h
    by_cases hxa : x < a
    · by_cases hv : v = Memory.unlisted
      · simp only [Memory.put, hxa, hv, if_true]
        by_cases hxy : x = y
        · have hay : a ≠ y := by omega
          simp [Memory.lookup, hxy, hay, Memory.lookup_below hcs (show y < a + 1 by omega)]
        · simp [hxy]
      · simp [Memory.put, hxa, hv, Memory.lookup]
    · by_cases hxe : x = a
      · subst hxe
        by_cases hv : v = Memory.unlisted
        · simp only [Memory.put, hxa, hv, if_false, if_true, Memory.lookup]
          by_cases hxy : x = y
          · simp [hxy, Memory.lookup_below hcs (show y < x + 1 by omega)]
          · simp [hxy]
        · simp only [Memory.put, hxa, hv, if_false, if_true, Memory.lookup]
          by_cases hxy : x = y <;> simp [hxy]
      · simp only [Memory.put, hxa, hxe, if_false, Memory.lookup, ih (a + 1) hcs]
        by_cases hay : a = y
        · have : x ≠ y := by omega
          simp [hay, this]
        · simp [hay]

/-- A read after a write gives the byte written, and every other byte as before. -/
theorem Memory.read_write {m : Memory} (h : m.wf = true) (i : Nat) (v : Byte) (j : Nat) :
    (m.write i v).read j = if i = j then v else m.read j :=
  Memory.lookup_put i v m.cells 0 h j

theorem Memory.wfFrom_put (x : Nat) (v : Byte) (cs : List Host.Cell) (lo : Nat)
    (h : Memory.wfFrom lo cs = true) (hlo : lo ≤ x) (hx : x < Config.frameLen) :
    Memory.wfFrom lo (Memory.put x v cs) = true := by
  induction cs generalizing lo with
  | nil => by_cases hv : v = Memory.unlisted <;> simp [Memory.put, Memory.wfFrom, hv, hlo, hx]
  | cons c cs ih =>
    obtain ⟨a, w⟩ := c
    simp only [Memory.wfFrom, Bool.and_eq_true, decide_eq_true_eq, bne_iff_ne] at h
    obtain ⟨⟨⟨hla, ha⟩, hw⟩, hcs⟩ := h
    by_cases hxa : x < a
    · by_cases hv : v = Memory.unlisted
      · simp [Memory.put, Memory.wfFrom, hxa, hv, hla, ha, hw, hcs]
      · have : x + 1 ≤ a := by omega
        simp [Memory.put, Memory.wfFrom, hxa, hv, ha, hw, hcs, hlo, hx, this]
    · by_cases hxe : x = a
      · subst hxe
        by_cases hv : v = Memory.unlisted
        · simp only [Memory.put, hxa, hv, if_false, if_true]
          exact Memory.wfFrom_mono (by omega) hcs
        · simp [Memory.put, Memory.wfFrom, hv, hlo, hx, hcs]
      · simp only [Memory.put, hxa, hxe, if_false, Memory.wfFrom, Bool.and_eq_true,
          decide_eq_true_eq, bne_iff_ne]
        exact ⟨⟨⟨hla, ha⟩, hw⟩, ih (a + 1) hcs (by omega)⟩

/-- A write to a byte that exists keeps the canonical form. -/
theorem Memory.write_wf {m : Memory} (h : m.wf = true) {i : Nat} (hi : i < Config.frameLen)
    (v : Byte) : (m.write i v).wf = true :=
  Memory.wfFrom_put i v m.cells 0 h (Nat.zero_le i) hi

theorem Memory.empty_wf : (⟨[]⟩ : Memory).wf = true := rfl

theorem Memory.empty_read (j : Nat) : (⟨[]⟩ : Memory).read j = 0#8 := rfl

theorem Memory.fold_writes (f : Frame) (l : List Nat) (hl : ∀ i ∈ l, i < Config.frameLen)
    (m : Memory) (h : m.wf = true) :
    (l.foldl (fun m i => m.write i (Frame.byte f i)) m).wf = true ∧
      ∀ j, (l.foldl (fun m i => m.write i (Frame.byte f i)) m).read j =
        if j ∈ l then Frame.byte f j else m.read j := by
  induction l generalizing m with
  | nil => exact ⟨h, fun j => by simp⟩
  | cons i l ih =>
    have hw := Memory.write_wf h (hl i (by simp)) (Frame.byte f i)
    obtain ⟨h1, h2⟩ := ih (fun k hk => hl k (by simp [hk])) _ hw
    refine ⟨h1, fun j => ?_⟩
    rw [List.foldl_cons, h2 j, Memory.read_write h]
    by_cases hj : j ∈ l
    · simp [hj]
    · by_cases hij : i = j
      · simp [hij]
      · have : ¬ j = i := fun e => hij e.symm
        simp [hj, hij, this]

/-- The copy of a frame is in canonical form. -/
theorem Memory.ofFrame_wf (f : Frame) : (Memory.ofFrame f).wf = true :=
  (Memory.fold_writes f _ (fun i hi => by simpa using hi) _ Memory.empty_wf).1

theorem Frame.byte_out {f : Frame} {i : Nat} (h : Config.frameLen ≤ i) : Frame.byte f i = 0#8 := by
  apply BitVec.eq_of_getLsbD_eq
  intro j hj
  have : 216 ≤ 8 * i + j := by simp [Config.frameLen] at h; omega
  simp [Frame.byte, BitVec.getLsbD_of_ge f _ this]

/-- Every byte of the copy is the frame's byte; an index that no byte has reads as 0 in both. -/
@[simp] theorem Memory.ofFrame_read (f : Frame) (j : Nat) :
    (Memory.ofFrame f).read j = Frame.byte f j := by
  have h := (Memory.fold_writes f (List.range Config.frameLen) (fun i hi => by simpa using hi)
    ⟨[]⟩ Memory.empty_wf).2 j
  have h' : (Memory.ofFrame f).read j =
      if j ∈ List.range Config.frameLen then Frame.byte f j else 0#8 := h
  rw [h']
  by_cases hj : j < Config.frameLen
  · simp [hj]
  · simp [hj, Frame.byte_out (Nat.le_of_not_lt hj)]

@[simp] theorem Block.loaded_payload (f : Frame) : (Block.loaded f).payload = Frame.payload f := by
  funext k
  exact Memory.ofFrame_read f (k + 1)

end Sys2Proof.Machine
end

