-- ==== Sys2Proof/Laws/Frame.lean ====
section
/-! SUPPORT. The laws of the frame's bytes: the bits of a byte, two frames with equal bytes are equal, and
a frame put together from its own bytes is itself. -/

namespace Sys2Proof

-- One theorem at a time: each theorem still being checked would hold a thread.
set_option Elab.async false

theorem Frame.byte_getLsbD (f : Frame) (i j : Nat) :
    (Frame.byte f i).getLsbD j = (decide (j < 8) && f.getLsbD (8 * i + j)) := by
  simp [Frame.byte]

theorem Frame.getLsbD_byte (f : Frame) (n : Nat) :
    f.getLsbD n = (Frame.byte f (n / 8)).getLsbD (n % 8) := by
  have h : n % 8 < 8 := Nat.mod_lt _ (by decide)
  rw [Frame.byte_getLsbD, Nat.div_add_mod]
  simp [h]

/-- Two frames whose 27 bytes agree are equal. -/
theorem Frame.ext_bytes {f g : Frame} (h : ∀ i, i < Config.frameLen → Frame.byte f i = Frame.byte g i) :
    f = g := by
  apply BitVec.eq_of_getLsbD_eq
  intro n hn
  rw [Frame.getLsbD_byte f, Frame.getLsbD_byte g, h (n / 8) (by simp [Config.frameLen]; omega)]

theorem Frame.ofBytes_getLsbD (bs : List Byte) (n : Nat) (hn : n < 216) :
    (Frame.ofBytes bs).getLsbD n = (bs.getD (n / 8) 0#8).getLsbD (n % 8) := by
  induction bs generalizing n with
  | nil => simp [Frame.ofBytes]
  | cons b bs ih =>
    have step : Frame.ofBytes (b :: bs) = Frame.ofBytes bs <<< 8 ||| b.setWidth 216 := rfl
    rw [step, BitVec.getLsbD_or, BitVec.getLsbD_shiftLeft, BitVec.getLsbD_setWidth]
    by_cases h8 : n < 8
    · have hd : n / 8 = 0 := by omega
      have hm : n % 8 = n := by omega
      simp [h8, hd, hm, hn]
    · have hd : n / 8 = (n - 8) / 8 + 1 := by omega
      have hm : n % 8 = (n - 8) % 8 := by omega
      have hb : b.getLsbD n = false := BitVec.getLsbD_of_ge b n (by omega)
      rw [hd, hm, ih (n - 8) (by omega)]
      simp [h8, hb, hn]

/-- Byte `i` of a frame put together from bytes is the list's byte `i`. -/
theorem Frame.byte_ofBytes (bs : List Byte) {i : Nat} (hi : i < Config.frameLen) :
    Frame.byte (Frame.ofBytes bs) i = bs.getD i 0#8 := by
  apply BitVec.eq_of_getLsbD_eq
  intro j hj
  have hi' : i < 27 := hi
  rw [Frame.byte_getLsbD, Frame.ofBytes_getLsbD bs _ (by omega)]
  have hd : (8 * i + j) / 8 = i := by omega
  have hm : (8 * i + j) % 8 = j := by omega
  simp [hd, hm, hj]

@[simp] theorem Frame.bytes_length (f : Frame) : (Frame.bytes f).length = 27 := by
  simp [Frame.bytes]

theorem Frame.bytes_getD (f : Frame) {i : Nat} (hi : i < Config.frameLen) :
    (Frame.bytes f).getD i 0#8 = Frame.byte f i := by
  have hi' : i < 27 := hi
  simp [Frame.bytes, List.getD, hi']

/-- A frame put together from its own bytes is itself. -/
@[simp] theorem Frame.ofBytes_bytes (f : Frame) : Frame.ofBytes (Frame.bytes f) = f :=
  Frame.ext_bytes (fun i hi => by rw [Frame.byte_ofBytes _ hi, Frame.bytes_getD f hi])

/-- 27 bytes are the bytes of the frame they make. -/
theorem Frame.bytes_ofBytes {bs : List Byte} (h : bs.length = 27) :
    Frame.bytes (Frame.ofBytes bs) = bs := by
  apply List.ext_getElem
  · simp [h]
  · intro i h1 h2
    have hi : i < Config.frameLen := by simpa using h1
    have e := Frame.bytes_getD (Frame.ofBytes bs) hi
    rw [Frame.byte_ofBytes bs hi] at e
    simpa only [List.getD_eq_getElem _ _ h1, List.getD_eq_getElem _ _ h2] using e

/-- Taking a frame off a list that begins with one gives that frame and the rest. -/
@[simp] theorem takeFrame_bytes (f : Frame) (rest : List Byte) :
    takeFrame (Frame.bytes f ++ rest) = .ok (f, rest) := by
  simp [takeFrame]

/-- What taking a frame off a list can answer. -/
theorem takeFrame_ok {bs rest : List Byte} {f : Frame} (h : takeFrame bs = .ok (f, rest)) :
    bs = Frame.bytes f ++ rest := by
  unfold takeFrame at h
  split at h
  · cases h
  · next hl =>
    cases h
    have hlen : (bs.take Config.frameLen).length = 27 := by
      simp [Config.frameLen] at hl ⊢; omega
    rw [Frame.bytes_ofBytes hlen, List.take_append_drop]




end Sys2Proof
end

