-- ==== Sys2Proof/Laws/Checks.lean ====
section
/-! SUPPORT. One lemma for each answer of the two checks (R121, R132), the bounds of the counts (R131), the
ranges of the decimal combiner (R161), and that the checks read no byte outside the payload (R67). -/

namespace Sys2Proof.Machine

-- One theorem at a time: each theorem still being checked would hold a thread.
set_option Elab.async false

/-! ### Parity -/

/-- Parity holds exactly where every column holds (R124 law 1). -/
theorem parityCheck_ok_iff (P : Payload) :
    parityCheck P = .ok ↔ ∀ col, col < 13 → P col ^^^ P (col + 13) = 0xFF#8 := by
  unfold parityCheck
  split
  · next h =>
    rw [List.find?_eq_none] at h
    simp only [true_iff]
    intro col hc
    simpa [badColumn] using h col (by simpa using hc)
  · next c h =>
    simp only [reduceCtorEq, false_iff]
    intro hall
    have hb := List.find?_some h
    have hm := List.mem_of_find?_eq_some h
    simp [badColumn, hall c (by simpa using hm)] at hb

/-- Parity fails at a column exactly where that column is the least mismatching one (R121, R122). -/
theorem parityCheck_fail_iff (P : Payload) (c : Nat) :
    parityCheck P = .fail c ↔
      c < 13 ∧ P c ^^^ P (c + 13) ≠ 0xFF#8 ∧ ∀ d, d < c → P d ^^^ P (d + 13) = 0xFF#8 := by
  have key : (List.range Config.half).find? (badColumn P) = some c ↔
      badColumn P c = true ∧ c ∈ List.range Config.half ∧ ∀ j, j < c → (!badColumn P j) = true :=
    List.find?_range_eq_some
  unfold parityCheck
  split
  · next h =>
    rw [h] at key
    simp only [reduceCtorEq, false_iff] at key ⊢
    rintro ⟨h1, h2, h3⟩
    exact key ⟨by simpa [badColumn] using h2, by simpa using h1,
      fun j hj => by simpa [badColumn] using h3 j hj⟩
  · next c' h =>
    rw [h] at key
    simp only [Option.some.injEq] at key
    rw [ParityResult.fail.injEq, key]
    simp only [badColumn, List.mem_range, bne_iff_ne, Bool.not_eq_true', bne_eq_false_iff_eq]
    exact ⟨fun ⟨a, b, c⟩ => ⟨b, a, c⟩, fun ⟨a, b, c⟩ => ⟨b, a, c⟩⟩

/-- A payload passes, or fails at one column below 13. -/
theorem parityCheck_cases (P : Payload) :
    parityCheck P = .ok ∨ ∃ c, c < 13 ∧ parityCheck P = .fail c := by
  cases h : parityCheck P with
  | ok => exact .inl rfl
  | fail c => exact .inr ⟨c, ((parityCheck_fail_iff P c).1 h).1, rfl⟩

/-- The parity check reads payload bytes 0 to 25 and no other (R67). -/
theorem parityCheck_congr {P Q : Payload} (h : ∀ k, k < 26 → P k = Q k) :
    parityCheck P = parityCheck Q := by
  cases hq : parityCheck Q with
  | ok =>
    rw [parityCheck_ok_iff] at hq ⊢
    intro col hc
    rw [h col (by omega), h (col + 13) (by omega)]
    exact hq col hc
  | fail c =>
    rw [parityCheck_fail_iff] at hq ⊢
    obtain ⟨h1, h2, h3⟩ := hq
    refine ⟨h1, ?_, fun d hd => ?_⟩
    · rw [h c (by omega), h (c + 13) (by omega)]
      exact h2
    · rw [h d (by omega), h (d + 13) (by omega)]
      exact h3 d hd

/-! ### The bit count -/

theorem popcnt8_le (b : Byte) : popcnt8 b ≤ 8 := by
  have one : ∀ x : Bool, x.toNat ≤ 1 := Bool.toNat_le
  have h0 := one (b.getLsbD 0)
  have h1 := one (b.getLsbD 1)
  have h2 := one (b.getLsbD 2)
  have h3 := one (b.getLsbD 3)
  have h4 := one (b.getLsbD 4)
  have h5 := one (b.getLsbD 5)
  have h6 := one (b.getLsbD 6)
  have h7 := one (b.getLsbD 7)
  unfold popcnt8
  omega

/-- The count written out: twelve terms (R132). -/
theorem bitCount_eq (P : Payload) :
    bitCount P = popcnt8 (P 14) + popcnt8 (P 15) + popcnt8 (P 16) + popcnt8 (P 17) + popcnt8 (P 18) +
      popcnt8 (P 19) + popcnt8 (P 20) + popcnt8 (P 21) + popcnt8 (P 22) + popcnt8 (P 23) +
      popcnt8 (P 24) + popcnt8 (P 25) := by
  simp [bitCount, Config.ckHi, Config.ckLo, List.range_succ, Nat.add_assoc]

/-- The count is at most 96, so it is exact in 8 bits (R131). -/
theorem bitCount_le (P : Payload) : bitCount P ≤ 96 := by
  rw [bitCount_eq]
  have h := fun k => popcnt8_le (P k)
  have h14 := h 14
  have h15 := h 15
  have h16 := h 16
  have h17 := h 17
  have h18 := h 18
  have h19 := h 19
  have h20 := h 20
  have h21 := h 21
  have h22 := h 22
  have h23 := h 23
  have h24 := h 24
  have h25 := h 25
  omega

theorem ckActualW_toNat (P : Payload) : (ckActualW P).toNat = bitCount P := by
  have h := bitCount_le P
  simp only [ckActualW, BitVec.toNat_ofNat]
  omega

/-- The checksum holds exactly where the declared byte, as a number, is the count (R93). -/
theorem ckOk_iff (P : Payload) : ckOk P = true ↔ (P 13).toNat = bitCount P := by
  rw [← ckActualW_toNat, ckOk, beq_iff_eq, ckExpectedW]
  exact ⟨fun h => by rw [h], fun h => (BitVec.eq_of_toNat_eq h).symm⟩

/-- What the checksum check can answer (R132). -/
theorem checksumCheck_cases (P : Payload) :
    (ckOk P = true ∧ checksumCheck P = .ok (P 13) (P 13)) ∨
      (ckOk P = false ∧ P 13 ≠ ckActualW P ∧
        checksumCheck P = .mismatch (P 13) (ckActualW P)) := by
  cases h : ckOk P with
  | true =>
    have e : ckActualW P = P 13 := by simpa [ckOk, ckExpectedW] using h
    exact .inl ⟨rfl, by simp [checksumCheck, h, ckExpectedW, e]⟩
  | false =>
    have e : ckActualW P ≠ P 13 := by simpa [ckOk, ckExpectedW] using h
    exact .inr ⟨rfl, e.symm, by simp [checksumCheck, h, ckExpectedW]⟩

/-- The count reads payload bytes 14 to 25 and no other (R130). -/
theorem bitCount_congr {P Q : Payload} (h : ∀ k, 14 ≤ k → k < 26 → P k = Q k) :
    bitCount P = bitCount Q := by
  simp only [bitCount_eq]
  rw [h 14 (by omega) (by omega), h 15 (by omega) (by omega), h 16 (by omega) (by omega),
    h 17 (by omega) (by omega), h 18 (by omega) (by omega), h 19 (by omega) (by omega),
    h 20 (by omega) (by omega), h 21 (by omega) (by omega), h 22 (by omega) (by omega),
    h 23 (by omega) (by omega), h 24 (by omega) (by omega), h 25 (by omega) (by omega)]

/-! ### The decimal combiner -/

theorem nibble_lt (n : Nibble) : n.toNat < 16 := n.isLt

theorem bcd3_le (d0 d1 d2 : Nibble) : bcd3 d0 d1 d2 ≤ 1665 := by
  have h0 := nibble_lt d0
  have h1 := nibble_lt d1
  have h2 := nibble_lt d2
  unfold bcd3
  omega

/-- The combiner is exact in 11 bits (R161, R169). -/
@[simp] theorem bcd3Word_toNat (d0 d1 d2 : Nibble) : (bcd3Word d0 d1 d2).toNat = bcd3 d0 d1 d2 := by
  have h := bcd3_le d0 d1 d2
  simp only [bcd3Word, BitVec.toNat_ofNat]
  omega

/-- A low nibble is the byte modulo 16 (R148). -/
theorem lonib_toNat (P : Payload) (k : Nat) : (lonib P k).toNat = (P k).toNat % 16 := by
  simp [lonib]

/-- A high nibble is the byte divided by 16 (R149). -/
theorem hinib_toNat (P : Payload) (k : Nat) : (hinib P k).toNat = (P k).toNat / 16 := by
  have h := (P k).isLt
  simp only [hinib, BitVec.extractLsb'_toNat, Nat.shiftRight_eq_div_pow]
  omega

end Sys2Proof.Machine
end

