-- ==== Sys2Proof/Laws/Decode.lean ====
section
/-! SUPPORT. The laws of the codes and of the selecting word. -/

namespace Sys2Proof

-- One theorem at a time: each theorem still being checked would hold a thread.
set_option Elab.async false

@[simp] theorem SeqState.ofCode?_code (q : SeqState) : SeqState.ofCode? q.code = some q := by
  cases q <;> decide

/-- A state's code is read back as no other state. -/
theorem SeqState.ofCode?_some {c : BitVec 3} {q : SeqState} (h : SeqState.ofCode? c = some q) :
    c = q.code := by
  revert h; revert c; cases q <;> decide

@[simp] theorem selByte_rst (rst start : Bool) (c : BitVec 3) :
    (selByte rst start c)[4] = rst := by
  revert c; cases rst <;> cases start <;> decide

@[simp] theorem selByte_start (rst start : Bool) (c : BitVec 3) :
    (selByte rst start c)[3] = start := by
  revert c; cases rst <;> cases start <;> decide

@[simp] theorem selByte_code (rst start : Bool) (c : BitVec 3) :
    (selByte rst start c).extractLsb' 0 3 = c := by
  revert c; cases rst <;> cases start <;> decide

@[simp] theorem selByte_upper (rst start : Bool) (c : BitVec 3) :
    (selByte rst start c).extractLsb' 5 3 = 0#3 := by
  revert c; cases rst <;> cases start <;> decide

/-- A byte whose upper three bits are zero is the byte of its own selecting word. -/
theorem selByte_of_upper {b : Byte} (h : b.extractLsb' 5 3 = 0#3) :
    b = selByte (b.getLsbD 4) (b.getLsbD 3) (b.extractLsb' 0 3) := by
  revert h; revert b; decide +kernel

/-- The decoder reads a selecting word's byte by the operation map. -/
@[simp] theorem decodeBytes_selByte (rst start : Bool) (c : BitVec 3) (rest : List Byte) :
    decodeBytes (selByte rst start c :: rest) = decodeWord rst start c rest := by
  simp [decodeBytes]

@[simp] theorem withFrame_bytes (mk : Frame → Instr) (f : Frame) (rest : List Byte) :
    withFrame mk (Frame.bytes f ++ rest) = .ok (mk f, rest) := by
  simp [withFrame]

@[simp] theorem withFrame_bytes_nil (mk : Frame → Instr) (f : Frame) :
    withFrame mk (Frame.bytes f) = .ok (mk f, []) := by
  simpa using withFrame_bytes mk f []

/-- What reading a frame operand can answer. -/
theorem withFrame_ok {mk : Frame → Instr} {bs rest : List Byte} {i : Instr}
    (h : withFrame mk bs = .ok (i, rest)) : ∃ f, i = mk f ∧ bs = Frame.bytes f ++ rest := by
  unfold withFrame at h
  split at h
  · next f r e => cases h; exact ⟨f, rfl, takeFrame_ok e⟩
  · cases h

/-- What the operation map can answer: the word's row, by `rst`, `start` and the state's code. -/
theorem decodeWord_ok {rst start : Bool} {c : BitVec 3} {bs rest : List Byte} {i : Instr}
    (h : decodeWord rst start c bs = .ok (i, rest)) :
    (rst = true ∧ i = .reset start c ∧ bs = rest) ∨
    (rst = false ∧ ((c = 0#3 ∧ start = true ∧ ∃ f, i = .loadIdle f ∧ bs = Frame.bytes f ++ rest) ∨
      (c = 0#3 ∧ start = false ∧ i = .holdIdle ∧ bs = rest) ∨
      (c = 1#3 ∧ i = .parchk start ∧ bs = rest) ∨
      (c = 2#3 ∧ i = .cksum start ∧ bs = rest) ∨
      (c = 3#3 ∧ i = .extract start ∧ bs = rest) ∨
      (∃ q : SeqState, q.isTerminal = true ∧ c = q.code ∧
        ((start = true ∧ ∃ f, i = .loadTerminal q f ∧ bs = Frame.bytes f ++ rest) ∨
          (start = false ∧ i = .holdTerminal q ∧ bs = rest))))) := by
  unfold decodeWord at h
  cases rst with
  | true => cases h; exact .inl ⟨rfl, rfl, rfl⟩
  | false =>
    refine .inr ⟨rfl, ?_⟩
    simp only [Bool.false_eq_true, if_false] at h
    have terminal : ∀ q : SeqState, q.isTerminal = true → c = q.code →
        (if start = true then withFrame (.loadTerminal q) bs else .ok (.holdTerminal q, bs)) =
          Except.ok (i, rest) →
        ((start = true ∧ ∃ f, i = .loadTerminal q f ∧ bs = Frame.bytes f ++ rest) ∨
          (start = false ∧ i = .holdTerminal q ∧ bs = rest)) := by
      intro q _ _ hq
      cases start with
      | true => exact .inl ⟨rfl, withFrame_ok (by simpa using hq)⟩
      | false => cases hq; exact .inr ⟨rfl, rfl, rfl⟩
    split at h
    · cases h
    · next e =>
      have hc := SeqState.ofCode?_some e
      cases start with
      | true => exact .inl ⟨hc, rfl, withFrame_ok (by simpa using h)⟩
      | false => cases h; exact .inr (.inl ⟨hc, rfl, rfl, rfl⟩)
    · next e => cases h; exact .inr (.inr (.inl ⟨SeqState.ofCode?_some e, rfl, rfl⟩))
    · next e => cases h; exact .inr (.inr (.inr (.inl ⟨SeqState.ofCode?_some e, rfl, rfl⟩)))
    · next e => cases h; exact .inr (.inr (.inr (.inr (.inl ⟨SeqState.ofCode?_some e, rfl, rfl⟩))))
    all_goals
      next e =>
      have hc := SeqState.ofCode?_some e
      exact .inr (.inr (.inr (.inr (.inr ⟨_, rfl, hc, terminal _ rfl hc h⟩))))

end Sys2Proof
end

