-- ==== Sys2Proof/Laws/Sequencer.lean ====
section
/-! SUPPORT. One lemma for each operation of an edge that says everything it can do to the block, and what
each leaves of the frame buffer's canonical form. -/

namespace Sys2Proof.Machine

-- One theorem at a time: each theorem still being checked would hold a thread.
set_option Elab.async false

/-- Everything `PARCHK` can do to the block (R184, R232). -/
theorem Block.parchk_cases (b : Block) :
    (parityCheck b.payload = .ok ∧ b.parchk = { b with seq := .parityChecked }) ∨
      ∃ col, col < 13 ∧ parityCheck b.payload = .fail col ∧
        b.parchk = { b with errCol := BitVec.ofNat 4 col, seq := .parityFailed } := by
  rcases parityCheck_cases b.payload with h | ⟨col, hc, h⟩
  · exact .inl ⟨h, by simp [Block.parchk, h]⟩
  · exact .inr ⟨col, hc, h, by simp [Block.parchk, h, Block.raise]⟩

/-- Everything `CKSUM` can do to the block (R186, R233). -/
theorem Block.cksum_cases (b : Block) :
    (ckOk b.payload = true ∧
      b.cksum = { b with ckExpected := b.payload 13, ckActual := b.payload 13,
                         seq := .checksumChecked }) ∨
      (ckOk b.payload = false ∧ b.payload 13 ≠ ckActualW b.payload ∧
        b.cksum = { b with ckExpected := b.payload 13, ckActual := ckActualW b.payload,
                           seq := .checksumFailed }) := by
  rcases checksumCheck_cases b.payload with ⟨h, e⟩ | ⟨h, hne, e⟩
  · exact .inl ⟨h, by simp [Block.cksum, e]⟩
  · exact .inr ⟨h, hne, by simp [Block.cksum, e, Block.raise]⟩

@[simp] theorem Block.parchk_fb (b : Block) : b.parchk.fb = b.fb := by
  rcases b.parchk_cases with ⟨_, e⟩ | ⟨col, _, _, e⟩ <;> rw [e]

@[simp] theorem Block.cksum_fb (b : Block) : b.cksum.fb = b.fb := by
  rcases b.cksum_cases with ⟨_, e⟩ | ⟨_, _, e⟩ <;> rw [e]

@[simp] theorem Block.extract_fb (b : Block) : b.extract.fb = b.fb := rfl

/-- The payload depends on the frame buffer alone. -/
theorem Block.payload_of_fb {b c : Block} (h : b.fb = c.fb) : b.payload = c.payload := by
  funext k
  simp [Block.payload, h]

@[simp] theorem Block.parchk_payload (b : Block) : b.parchk.payload = b.payload :=
  Block.payload_of_fb b.parchk_fb

@[simp] theorem Block.cksum_payload (b : Block) : b.cksum.payload = b.payload :=
  Block.payload_of_fb b.cksum_fb

@[simp] theorem Block.extract_payload (b : Block) : b.extract.payload = b.payload := rfl

@[simp] theorem Block.loaded_fb (f : Frame) : (Block.loaded f).fb = Memory.ofFrame f := rfl
@[simp] theorem Block.loaded_seq (f : Frame) : (Block.loaded f).seq = .start := rfl
@[simp] theorem Block.loaded_errCol (f : Frame) : (Block.loaded f).errCol = 0#4 := rfl
@[simp] theorem Block.loaded_ckExpected (f : Frame) : (Block.loaded f).ckExpected = 0#8 := rfl
@[simp] theorem Block.loaded_ckActual (f : Frame) : (Block.loaded f).ckActual = 0#8 := rfl
@[simp] theorem Block.loaded_reading (f : Frame) :
    (Block.loaded f).reading = WeatherReading.zero := rfl

/-- The expansion of a whole call (R103). -/
theorem Block.wholeCall_eq (f : Frame) :
    Block.wholeCall f =
      if (Block.loaded f).parchk.seq = .parityChecked then
        if (Block.loaded f).parchk.cksum.seq = .checksumChecked then
          (Block.loaded f).parchk.cksum.extract
        else (Block.loaded f).parchk.cksum
      else (Block.loaded f).parchk := rfl

/-- Everything a whole call can leave of the block (R103). -/
theorem Block.wholeCall_cases (f : Frame) :
    (∃ col, col < 13 ∧ parityCheck (Frame.payload f) = .fail col ∧
      Block.wholeCall f =
        { Block.loaded f with errCol := BitVec.ofNat 4 col, seq := .parityFailed }) ∨
    (parityCheck (Frame.payload f) = .ok ∧ ckOk (Frame.payload f) = false ∧
      Frame.payload f 13 ≠ ckActualW (Frame.payload f) ∧
      Block.wholeCall f =
        { Block.loaded f with ckExpected := Frame.payload f 13,
                              ckActual := ckActualW (Frame.payload f), seq := .checksumFailed }) ∨
    (parityCheck (Frame.payload f) = .ok ∧ ckOk (Frame.payload f) = true ∧
      Block.wholeCall f =
        { Block.loaded f with ckExpected := Frame.payload f 13, ckActual := Frame.payload f 13,
                              reading := readingOf (Frame.payload f), seq := .decoded }) := by
  have hp := Block.parchk_cases (Block.loaded f)
  rw [Block.loaded_payload] at hp
  rcases hp with ⟨hok, e1⟩ | ⟨col, hc, hf, e1⟩
  · refine .inr ?_
    have pay : (Block.loaded f).parchk.payload = Frame.payload f := by simp
    have hk := Block.cksum_cases (Block.loaded f).parchk
    rw [pay] at hk
    rcases hk with ⟨h, e2⟩ | ⟨h, hne, e2⟩
    · refine .inr ⟨hok, h, ?_⟩
      have pay2 : (Block.loaded f).parchk.cksum.payload = Frame.payload f := by simp
      simp only [Block.wholeCall, e1, if_true] at e2 ⊢
      rw [e1] at pay2
      simp only [e2, if_true, Block.extract] at pay2 ⊢
      rw [pay2]
    · refine .inl ⟨hok, h, hne, ?_⟩
      simp only [Block.wholeCall, e1, if_true] at e2 ⊢
      simp only [e2, reduceCtorEq, if_false]
  · exact .inl ⟨col, hc, hf, by simp [Block.wholeCall, e1]⟩

/-! ### The canonical form of the frame buffer -/

theorem Block.atReset_wf : Block.atReset.fb.wf = true := rfl

theorem Block.loaded_wf (f : Frame) : (Block.loaded f).fb.wf = true := Memory.ofFrame_wf f

theorem Block.wholeCall_fb (f : Frame) : (Block.wholeCall f).fb = Memory.ofFrame f := by
  rcases Block.wholeCall_cases f with ⟨_, _, _, e⟩ | ⟨_, _, _, e⟩ | ⟨_, _, e⟩ <;> rw [e] <;> rfl

end Sys2Proof.Machine
end

