-- ==== Sys2Proof/Laws/Exec.lean ====
section
/-! SUPPORT. One lemma for each instruction that says what its meaning answers: the block's transition for
a sequencer operation and for `DECODE`, the output looked at for an extractor or a primitive. -/

namespace Sys2Proof.Machine

-- One theorem at a time: each theorem still being checked would hold a thread.
set_option Elab.async false

variable (s : State) (start : Bool) (code : BitVec 3) (src : SeqState) (frame : Frame) (k : Fin 26)

@[simp] theorem exec_reset : exec (.reset start code) s = .next (s.setBlock Block.atReset) := rfl
@[simp] theorem exec_loadIdle :
    exec (.loadIdle frame) s = .next (s.setBlock (Block.loaded frame)) := rfl
@[simp] theorem exec_loadTerminal :
    exec (.loadTerminal src frame) s = .next (s.setBlock (Block.loaded frame)) := rfl
@[simp] theorem exec_holdIdle : exec .holdIdle s = .next s := rfl
@[simp] theorem exec_holdTerminal : exec (.holdTerminal src) s = .next s := rfl
@[simp] theorem exec_parchk : exec (.parchk start) s = .next (s.setBlock s.block.parchk) := rfl
@[simp] theorem exec_cksum : exec (.cksum start) s = .next (s.setBlock s.block.cksum) := rfl
@[simp] theorem exec_extract : exec (.extract start) s = .next (s.setBlock s.block.extract) := rfl
@[simp] theorem exec_decode :
    exec (.decode frame) s = .next (s.setBlock (Block.wholeCall frame)) := rfl

@[simp] theorem exec_xsid :
    exec .xsid s = .next (s.look (.xSensorId (xSensorId s.block.payload))) := rfl
@[simp] theorem exec_xwdir :
    exec .xwdir s = .next (s.look (.xWindDirRaw (xWindDirRaw s.block.payload))) := rfl
@[simp] theorem exec_xgust :
    exec .xgust s = .next (s.look (.xWindGust (xWindGust s.block.payload))) := rfl
@[simp] theorem exec_xbatt :
    exec .xbatt s = .next (s.look (.xBatteryOk (xBatteryOk s.block.payload))) := rfl
@[simp] theorem exec_xtemp :
    exec .xtemp s = .next (s.look (.xTemp (xTempMag s.block.payload) (xTempNeg s.block.payload)
      (xTempTenths s.block.payload))) := rfl
@[simp] theorem exec_xhum :
    exec .xhum s = .next (s.look (.xHumidity (xHumidity s.block.payload))) := rfl
@[simp] theorem exec_xwavg :
    exec .xwavg s = .next (s.look (.xWindAvg (xWindAvg s.block.payload))) := rfl
@[simp] theorem exec_xrain : exec .xrain s = .next (s.look (.xRain (xRain s.block.payload))) := rfl
@[simp] theorem exec_byte :
    exec (.byte k) s = .next (s.look (.byte (byteAt s.block.payload k))) := rfl
@[simp] theorem exec_lonib :
    exec (.lonib k) s = .next (s.look (.lonib (lonib s.block.payload k))) := rfl
@[simp] theorem exec_hinib :
    exec (.hinib k) s = .next (s.look (.hinib (hinib s.block.payload k))) := rfl
@[simp] theorem exec_bit7 : exec (.bit7 k) s = .next (s.look (.bit7 (bit7 s.block.payload k))) := rfl
@[simp] theorem exec_bcd3 (d0 d1 d2 : Nibble) :
    exec (.bcd3 d0 d1 d2) s = .next (s.look (.bcd3 (bcd3Word d0 d1 d2))) := rfl
@[simp] theorem exec_popcnt8 (v : Byte) :
    exec (.popcnt8 v) s = .next (s.look (.popcnt8 (popcnt8 v))) := rfl

/-- Everything an instruction can do: each is a sequencer operation on the block, a whole call, or a look
at an output that leaves the block alone. -/
theorem exec_cases (i : Instr) (s : State) :
    (∃ b, exec i s = .next (s.setBlock b) ∧
      ((i.mnemonic = "RESET" ∧ b = Block.atReset) ∨
        (i.mnemonic = "LOAD" ∧ ∃ f, b = Block.loaded f) ∨
        (i.mnemonic = "HOLD" ∧ b = s.block) ∨
        (i.mnemonic = "PARCHK" ∧ b = s.block.parchk) ∨
        (i.mnemonic = "CKSUM" ∧ b = s.block.cksum) ∨
        (i.mnemonic = "EXTRACT" ∧ b = s.block.extract) ∨
        (i.mnemonic = "DECODE" ∧ ∃ f, b = Block.wholeCall f))) ∨
    (∃ v, exec i s = .next (s.look v) ∧
      i.mnemonic ∈ ["XSID", "XWDIR", "XGUST", "XBATT", "XTEMP", "XHUM", "XWAVG", "XRAIN", "BYTE",
        "LONIB", "HINIB", "BIT7", "BCD3", "POPCNT8"]) := by
  cases i with
  | reset a c => exact .inl ⟨_, rfl, .inl ⟨rfl, rfl⟩⟩
  | loadIdle f => exact .inl ⟨_, rfl, .inr (.inl ⟨rfl, f, rfl⟩)⟩
  | loadTerminal q f => exact .inl ⟨_, rfl, .inr (.inl ⟨rfl, f, rfl⟩)⟩
  | holdIdle => exact .inl ⟨s.block, rfl, .inr (.inr (.inl ⟨rfl, rfl⟩))⟩
  | holdTerminal q => exact .inl ⟨s.block, rfl, .inr (.inr (.inl ⟨rfl, rfl⟩))⟩
  | parchk a => exact .inl ⟨_, rfl, .inr (.inr (.inr (.inl ⟨rfl, rfl⟩)))⟩
  | cksum a => exact .inl ⟨_, rfl, .inr (.inr (.inr (.inr (.inl ⟨rfl, rfl⟩))))⟩
  | extract a => exact .inl ⟨_, rfl, .inr (.inr (.inr (.inr (.inr (.inl ⟨rfl, rfl⟩)))))⟩
  | decode f => exact .inl ⟨_, rfl, .inr (.inr (.inr (.inr (.inr (.inr ⟨rfl, f, rfl⟩)))))⟩
  | _ => exact .inr ⟨_, rfl, by simp [Instr.mnemonic]⟩

end Sys2Proof.Machine
end

