-- ==== Sys2Proof/Laws/PerInstr.lean ====
section
/-! SUPPORT. The family `EncodedLength`: how long an instruction's word is. A sequencer step has one byte,
`LOAD` 28 (its operand `frame_in` follows), `DECODE` the 27 bytes of a raw frame, and an extractor or a
primitive has no word (R98). -/

namespace Sys2Proof.Laws.EncodedLength

-- One theorem at a time: each theorem still being checked would hold a thread.
set_option Elab.async false

/-- The word of an instruction, where it has one, has 1 or 28 bytes as a step and 27 as a frame. -/
def Statement (i : Instr) : Prop :=
  ∀ fmt bs, encode i = some (fmt, bs) →
    (fmt = .step → bs.length = 1 ∨ bs.length = 28) ∧ (fmt = .frame27 → bs.length = 27)

theorem of_none {i : Instr} (h : encode i = none) : Statement i := by
  intro fmt bs e
  rw [h] at e
  cases e

theorem of_step {i : Instr} {w : List Byte} (h : encode i = some (.step, w))
    (hw : w.length = 1 ∨ w.length = 28) : Statement i := by
  intro fmt bs e
  rw [h] at e
  cases e
  exact ⟨fun _ => hw, fun hf => by cases hf⟩

theorem reset (start : Bool) (state : BitVec 3) : Statement (.reset start state) :=
  of_step rfl (by simp)
theorem loadIdle (frame : Frame) : Statement (.loadIdle frame) := of_step rfl (by simp)
theorem loadTerminal (src : SeqState) (frame : Frame) : Statement (.loadTerminal src frame) :=
  of_step rfl (by simp)
theorem holdIdle : Statement .holdIdle := of_step rfl (by simp)
theorem holdTerminal (src : SeqState) : Statement (.holdTerminal src) := of_step rfl (by simp)
theorem parchk (start : Bool) : Statement (.parchk start) := of_step rfl (by simp)
theorem cksum (start : Bool) : Statement (.cksum start) := of_step rfl (by simp)
theorem extract (start : Bool) : Statement (.extract start) := of_step rfl (by simp)
theorem xsid : Statement .xsid := of_none rfl
theorem xwdir : Statement .xwdir := of_none rfl
theorem xgust : Statement .xgust := of_none rfl
theorem xbatt : Statement .xbatt := of_none rfl
theorem xtemp : Statement .xtemp := of_none rfl
theorem xhum : Statement .xhum := of_none rfl
theorem xwavg : Statement .xwavg := of_none rfl
theorem xrain : Statement .xrain := of_none rfl
theorem byte (k : Fin 26) : Statement (.byte k) := of_none rfl
theorem lonib (k : Fin 26) : Statement (.lonib k) := of_none rfl
theorem hinib (k : Fin 26) : Statement (.hinib k) := of_none rfl
theorem bit7 (k : Fin 26) : Statement (.bit7 k) := of_none rfl
theorem bcd3 (d0 d1 d2 : Nibble) : Statement (.bcd3 d0 d1 d2) := of_none rfl
theorem popcnt8 (v : Byte) : Statement (.popcnt8 v) := of_none rfl
theorem decode (frame : Frame) : Statement (.decode frame) := by
  intro fmt bs e
  cases e
  exact ⟨fun h => (by cases h), fun _ => Frame.bytes_length frame⟩

end Sys2Proof.Laws.EncodedLength
end

