-- ==== Sys2Proof/Laws/Step.lean ====
section
/-! SUPPORT. What a step can do: the word at the ports always decodes, and one lemma for each operation
says which step it is (R180). -/

namespace Sys2Proof.Machine

-- One theorem at a time: each theorem still being checked would hold a thread.
set_option Elab.async false

/-- The word at the ports, read by the operation map. -/
theorem decode_fetch (s : State) :
    decodeBytes (fetch s) =
      decodeWord s.pins.rst s.pins.start s.block.seq.code (Frame.bytes s.pins.frameIn) := by
  simp [fetch]

theorem step_of_decode {s : State} {i : Instr} {rest : List Byte}
    (h : decodeBytes (fetch s) = .ok (i, rest)) : step s = afterEdge (exec i s) := by
  simp [step, h]

/-- A step with `rst` high is `RESET`. -/
theorem step_reset {s : State} (h : s.pins.rst = true) :
    step s = .next (s.setBlock Block.atReset).advance := by
  have d : decodeBytes (fetch s) =
      .ok (.reset s.pins.start s.block.seq.code, Frame.bytes s.pins.frameIn) := by
    simp [decode_fetch, decodeWord, h]
  rw [step_of_decode d]
  rfl

/-- A step of a resting state with `rst` low and `start` high is `LOAD`. -/
theorem step_load {s : State} (h : s.pins.rst = false) (hs : s.pins.start = true)
    (hr : restingState s.block.seq = true) :
    step s = .next (s.setBlock (Block.loaded s.pins.frameIn)).advance := by
  cases hq : s.block.seq <;> simp [restingState, busyOf, hq] at hr <;>
    simp [step, decode_fetch, decodeWord, h, hs, hq, exec, execLoadIdle, execLoadTerminal, afterEdge]

/-- A step of a resting state with `rst` and `start` low is `HOLD`. -/
theorem step_hold {s : State} (h : s.pins.rst = false) (hs : s.pins.start = false)
    (hr : restingState s.block.seq = true) : step s = .next s.advance := by
  cases hq : s.block.seq <;> simp [restingState, busyOf, hq] at hr <;>
    simp [step, decode_fetch, decodeWord, h, hs, hq, exec, execHoldIdle, execHoldTerminal, afterEdge]

/-- A step of `Start` with `rst` low is `PARCHK`. -/
theorem step_parchk {s : State} (h : s.pins.rst = false) (hq : s.block.seq = .start) :
    step s = .next (s.setBlock s.block.parchk).advance := by
  simp [step, decode_fetch, decodeWord, h, hq, exec, execParchk, afterEdge]

/-- A step of `ParityChecked` with `rst` low is `CKSUM`. -/
theorem step_cksum {s : State} (h : s.pins.rst = false) (hq : s.block.seq = .parityChecked) :
    step s = .next (s.setBlock s.block.cksum).advance := by
  simp [step, decode_fetch, decodeWord, h, hq, exec, execCksum, afterEdge]

/-- A step of `ChecksumChecked` with `rst` low is `EXTRACT`. -/
theorem step_extract {s : State} (h : s.pins.rst = false) (hq : s.block.seq = .checksumChecked) :
    step s = .next (s.setBlock s.block.extract).advance := by
  simp [step, decode_fetch, decodeWord, h, hq, exec, execExtract, afterEdge]

/-- Everything a step can do: one of the six operations on the block, and the edge passes (R180). -/
theorem step_cases (s : State) :
    (s.pins.rst = true ∧ step s = .next (s.setBlock Block.atReset).advance) ∨
    (s.pins.rst = false ∧
      ((restingState s.block.seq = true ∧ s.pins.start = true ∧
          step s = .next (s.setBlock (Block.loaded s.pins.frameIn)).advance) ∨
        (restingState s.block.seq = true ∧ s.pins.start = false ∧ step s = .next s.advance) ∨
        (s.block.seq = .start ∧ step s = .next (s.setBlock s.block.parchk).advance) ∨
        (s.block.seq = .parityChecked ∧ step s = .next (s.setBlock s.block.cksum).advance) ∨
        (s.block.seq = .checksumChecked ∧ step s = .next (s.setBlock s.block.extract).advance))) := by
  cases h : s.pins.rst with
  | true => exact .inl ⟨rfl, step_reset h⟩
  | false =>
    refine .inr ⟨rfl, ?_⟩
    cases hr : restingState s.block.seq with
    | true =>
      cases hs : s.pins.start with
      | true => exact .inl ⟨rfl, rfl, step_load h hs hr⟩
      | false => exact .inr (.inl ⟨rfl, rfl, step_hold h hs hr⟩)
    | false =>
      cases hq : s.block.seq with
      | start => exact .inr (.inr (.inl ⟨rfl, step_parchk h hq⟩))
      | parityChecked => exact .inr (.inr (.inr (.inl ⟨rfl, step_cksum h hq⟩)))
      | checksumChecked => exact .inr (.inr (.inr (.inr ⟨rfl, step_extract h hq⟩)))
      | _ => simp [restingState, busyOf, hq] at hr

/-- A step answers a next state, with the edge passed and the output looked at unchanged. -/
theorem step_answers (s : State) : ∃ b, step s = .next (s.setBlock b).advance := by
  rcases step_cases s with ⟨_, e⟩ | ⟨_, ⟨_, _, e⟩ | ⟨_, _, e⟩ | ⟨_, e⟩ | ⟨_, e⟩ | ⟨_, e⟩⟩
  · exact ⟨_, e⟩
  · exact ⟨_, e⟩
  · exact ⟨s.block, e⟩
  · exact ⟨_, e⟩
  · exact ⟨_, e⟩
  · exact ⟨_, e⟩

/-! ### Several edges -/

@[simp] theorem run_zero (s : State) : Host.Core.run core 0 s = .next s := rfl

/-- A run begins with its first step. -/
theorem run_succ {s t : State} (h : step s = .next t) (k : Nat) :
    Host.Core.run core (k + 1) s = Host.Core.run core k t := by
  have h' : Host.Core.step core s = .next t := h
  simp only [Host.Core.run, h']

theorem run_one {s t : State} (h : step s = .next t) : Host.Core.run core 1 s = .next t := by
  rw [run_succ h]
  rfl

/-- A run answers a next state, with its edges' inputs dropped from the host's line. -/
theorem run_answers (k : Nat) (s : State) :
    ∃ t, Host.Core.run core k s = .next t ∧ t.inputs = s.inputs.drop k := by
  induction k generalizing s with
  | zero => exact ⟨s, rfl, rfl⟩
  | succ k ih =>
    obtain ⟨b, e⟩ := step_answers s
    obtain ⟨t, ht, hi⟩ := ih (s.setBlock b).advance
    refine ⟨t, by rw [run_succ e]; exact ht, ?_⟩
    rw [hi]
    simp

/-- A run of `a + b` edges is `a` edges and then `b`. -/
theorem run_add {a : Nat} {s t : State} (h : Host.Core.run core a s = .next t) (b : Nat) :
    Host.Core.run core (a + b) s = Host.Core.run core b t := by
  induction a generalizing s with
  | zero => cases h; simp
  | succ a ih =>
    obtain ⟨c, e⟩ := step_answers s
    rw [run_succ e] at h
    rw [Nat.add_right_comm, run_succ e]
    exact ih h

end Sys2Proof.Machine
end

