-- ==== Sys2Proof/Tests/Slice0.lean ====
section
/-! SUPPORT. The model's own tests. Expected values are the spec's: the operation map (R98) and the worked
examples and vectors of 95_test_vectors.md, whose id stands beside each test. The witnesses at the end
show a state and operands that meet the hypotheses of each statement. -/

namespace Sys2Proof.Tests

open Sys2Proof Sys2Proof.Machine

/- One theorem at a time: many kernel evaluations waiting on each other would each hold a thread. -/
set_option Elab.async false

/-! ### Frames of 95_test_vectors.md section 2 -/

/-- The frame of 27 raw bytes, raw byte 0 first. -/
def ofRaw (bs : List Byte) : Frame := Frame.ofBytes bs

def F1 : Frame := 0x0002483501230017402C0F7B1DFFFDB7CAFEDCFFE8BFD3F084E2D4#216
def F2 : Frame := 0x8100008701230999C10500A5197EFFFF78FEDCF6663EFAFF5AE6D4#216
def F3 : Frame := ofRaw
  ([0xD4, 0xE2, 0x84, 0xF0, 0xD3, 0xBE, 0xE8, 0xFF, 0xDC, 0xFE, 0xCA, 0xB7, 0xFD, 0xFF] ++
    [0x1D, 0x7B, 0x0F, 0x2C, 0x40, 0x17, 0x00, 0x23, 0x01, 0x35, 0x48, 0x02, 0x00])
def F4 : Frame := ofRaw
  ([0xD4, 0xDE, 0x84, 0xF0, 0xD3, 0xBF, 0xE8, 0xFF, 0xDC, 0xFE, 0xCA, 0xB7, 0xFD, 0xFF] ++
    [0x21, 0x7B, 0x0F, 0x2C, 0x40, 0x17, 0x00, 0x23, 0x01, 0x35, 0x48, 0x02, 0x00])
def F5 : Frame := 0xFFFFFFFFFFFFFFFFFFFFFFFF600000000000000000000000009FD4#216
def F8 : Frame := ofRaw
  ([0xD4, 0xCC, 0xEF, 0x00, 0x00, 0xF0, 0xFF, 0x0F, 0x54, 0x03, 0x5F, 0x65, 0x06, 0x8F] ++
    [0x33, 0x10, 0xFF, 0xFF, 0x0F, 0x00, 0xF0, 0xAB, 0xFC, 0xA0, 0x9A, 0xF9, 0x70])
/-- F7: temperature magnitude 0 with the sign set. -/
def F7 : Frame := ofRaw
  ([0xD4, 0xFD, 0xFE, 0xFF, 0xFF, 0xFF, 0xFF, 0xFF, 0xFF, 0xFF, 0xFF, 0xFF, 0xFF, 0xF7] ++
    [0x02, 0x01, 0x00, 0x00, 0x00, 0x00, 0x00, 0x00, 0x00, 0x00, 0x00, 0x00, 0x08])
/-- F12: a payload of 26 bytes 00. -/
def F12 : Frame := 0xD4#216
/-- F15: F1 with bit 7 of `P[12]` flipped. -/
def F15 : Frame := F1 ^^^ 1#216 <<< 111
/-- F17: F1 with bit 0 of `P[0]` flipped. -/
def F17 : Frame := F1 ^^^ 1#216 <<< 8
/-- K11: F5 with `P[13]` = 0x61 and `P[0]` = 0x9E. -/
def K11 : Frame := 0xFFFFFFFFFFFFFFFFFFFFFFFF610000000000000000000000009ED4#216

/-- A state whose block has taken in a frame and stands at `q`. -/
def atSeq (q : SeqState) (f : Frame) : State :=
  { State.reset with block := { Block.loaded f with seq := q } }

/-- The same with inputs lined up. -/
def withInputs (ps : List Inputs) (s : State) : State := { s with inputs := ps }

/-- The block after an instruction. -/
def blockAfter (i : Instr) (s : State) : Option Block := (nextOf (exec i s)).map (·.block)

/-- The output an instruction shows on a frame. -/
def shown (i : Instr) (f : Frame) : Option Signal :=
  (nextOf (exec i (atSeq .start f))).bind (·.probe)

/-! ### Well-formedness: one ill-formed term for each check -/

theorem test_wf_load_terminal_refused : (Instr.loadTerminal .idle F1).wellFormed = false := by decide
theorem test_wf_hold_terminal_refused : (Instr.holdTerminal .start).wellFormed = false := by decide
theorem test_wf_decode_sync_refused : (Instr.decode 0#216).wellFormed = false := by decide
theorem test_wf_accepts : (Instr.loadTerminal .decoded F1).wellFormed = true ∧
    (Instr.decode F1).wellFormed = true := by decide

/-! ### Decoding: words written out from the operation map (R98) -/

theorem test_decode_reset : decodeBytes [0b00011101#8] = .ok (.reset true 5#3, []) := by decide
theorem test_decode_load_idle :
    decodeBytes (0b00001000#8 :: Frame.bytes F1) = .ok (.loadIdle F1, []) := by decide +kernel
theorem test_decode_load_terminal :
    decodeBytes (0b00001100#8 :: Frame.bytes F2) = .ok (.loadTerminal .decoded F2, []) := by
  decide +kernel
theorem test_decode_hold_idle : decodeBytes [0b00000000#8] = .ok (.holdIdle, []) := by decide
theorem test_decode_hold_terminal :
    decodeBytes [0b00000110#8] = .ok (.holdTerminal .checksumFailed, []) := by decide
theorem test_decode_parchk : decodeBytes [0b00000001#8] = .ok (.parchk false, []) := by decide
theorem test_decode_cksum : decodeBytes [0b00001010#8] = .ok (.cksum true, []) := by decide
theorem test_decode_extract : decodeBytes [0b00001011#8] = .ok (.extract true, []) := by decide
theorem test_decode_frame : decodeFrame27 (Frame.bytes F1) = .ok (.decode F1, []) := by decide +kernel
theorem test_decode_rejects_code7 : decodeBytes [0b00001111#8] = .error .reservedState := by decide
theorem test_decode_rejects_upper_bits : decodeBytes [0b00100000#8] = .error .reservedBits := by decide
theorem test_decode_rejects_short_frame :
    decodeBytes [0b00001000#8, 0xD4#8] = .error .shortFrame := by decide
theorem test_decode_rejects_nothing : decodeBytes [] = .error .noWord := by decide
theorem test_decode_frame_rejects_sync :
    decodeFrame27 (List.replicate 27 0#8) = .error .wrongSync := by decide
theorem test_no_word_of_its_own :
    [Instr.xsid, .xwdir, .xgust, .xbatt, .xtemp, .xhum, .xwavg, .xrain, .byte 0, .lonib 0, .hinib 0,
      .bit7 0, .bcd3 0 0 0, .popcnt8 0].all (fun i => (encode i).isNone) = true := by decide
theorem test_table_words :
    decodeTableWord 8 0b10000 = some (.reset false 0#3) ∧
    decodeTableWord 8 0b01000 = some (.loadIdle 0#216) ∧
    decodeTableWord 8 0b00100 = some (.holdTerminal .decoded) ∧
    decodeTableWord 8 0b00011 = some (.extract false) := by decide +kernel
/-- The step runs the placed word: `PARCHK` on the zero frame of reset fails at column 0 (R125). -/
theorem test_step_runs_placed_word :
    (nextOf (step (State.reset.withFetchWord 8 0b00001))).map (·.block.seq) = some .parityFailed := by
  decide +kernel
theorem test_step_load_placed_word :
    (nextOf (step (State.reset.withFetchWord 224 (8 + 256 * F1.toNat)))).map (·.block) =
      some (Block.loaded F1) := by decide +kernel

/-! ### Operations of an edge -/

/-- R60: raw byte 0 is in the eight least significant bits; F1 written both ways. -/
theorem test_frame_bytes : Frame.bytes F1 =
    [0xD4, 0xE2, 0x84, 0xF0, 0xD3, 0xBF, 0xE8, 0xFF, 0xDC, 0xFE, 0xCA, 0xB7, 0xFD, 0xFF] ++
      [0x1D, 0x7B, 0x0F, 0x2C, 0x40, 0x17, 0x00, 0x23, 0x01, 0x35, 0x48, 0x02, 0x00] := by
  decide +kernel
/-- Run 5, e2: `RESET` in the middle of a call. -/
theorem test_reset : blockAfter (.reset true 2#3) (atSeq .parityChecked F5) =
    some Block.atReset := by decide +kernel
/-- Run 1, e0. -/
theorem test_load_idle : (blockAfter (.loadIdle F1) State.reset).map
    (fun b => (b.seq, b.fb.read 14, b.fb.read 26, b.fb.wf)) = some (.start, 0x1D#8, 0#8, true) := by
  decide +kernel
/-- Run 2, e2: the earlier outcome is erased. -/
theorem test_load_terminal :
    (blockAfter (.loadTerminal .parityFailed F1)
      { State.reset with block := { Block.atReset with errCol := 4#4, seq := .parityFailed } }).map
      (fun b => (b.seq, b.errCol)) = some (.start, 0#4) := by decide +kernel
theorem test_hold_idle : blockAfter .holdIdle State.reset = some Block.atReset := by decide
/-- Run 3, e3. -/
theorem test_hold_terminal : blockAfter (.holdTerminal .checksumFailed) (atSeq .checksumFailed F4) =
    some (atSeq .checksumFailed F4).block := by decide +kernel
/-- P2: F3 fails at column 4. -/
theorem test_parchk_fails : (blockAfter (.parchk false) (atSeq .start F3)).map
    (fun b => (b.seq, b.errCol)) = some (.parityFailed, 4#4) := by decide +kernel
/-- Run 1, e1, with `start` high as in run 4. -/
theorem test_parchk_passes : (blockAfter (.parchk true) (atSeq .start F1)).map
    (fun b => (b.seq, b.errCol)) = some (.parityChecked, 0#4) := by decide +kernel
/-- K2: declared first, computed second. -/
theorem test_cksum_fails : (blockAfter (.cksum false) (atSeq .parityChecked F4)).map
    (fun b => (b.seq, b.ckExpected, b.ckActual)) = some (.checksumFailed, 0x21#8, 0x1D#8) := by
  decide +kernel
/-- K4: the largest count. -/
theorem test_cksum_passes : (blockAfter (.cksum false) (atSeq .parityChecked F5)).map
    (fun b => (b.seq, b.ckExpected, b.ckActual)) = some (.checksumChecked, 0x60#8, 0x60#8) := by
  decide +kernel
/-- O2: F2. -/
theorem test_extract : (blockAfter (.extract false) (atSeq .checksumChecked F2)).map
    (fun b => (b.seq, b.reading)) =
      some (.decoded, ⟨0xA5#8, 123#11, true, 87#8, 12#4, 261#12, 999#11, 0#11, false⟩) := by
  decide +kernel

/-! ### Extractors -/

theorem test_xsid_b1 : shown .xsid F1 = some (.xSensorId 0x7B#8) := by decide +kernel
theorem test_xwdir_b3 : shown .xwdir F1 = some (.xWindDirRaw 4#4) := by decide +kernel
theorem test_xwdir_run4 : shown .xwdir F2 = some (.xWindDirRaw 0xC#4) := by decide +kernel
theorem test_xgust_b6 : shown .xgust F1 = some (.xWindGust 0x02C#12) := by decide +kernel
theorem test_xgust_b7 : shown .xgust F2 = some (.xWindGust 0x105#12) := by decide +kernel
theorem test_xbatt_b10 : shown .xbatt F1 = some (.xBatteryOk true) := by decide +kernel
theorem test_xbatt_low : shown .xbatt F2 = some (.xBatteryOk false) := by decide +kernel
theorem test_xtemp_d2 : shown .xtemp F2 = some (.xTemp 123#11 true 0xF85#12) := by decide +kernel
theorem test_xtemp_d3 : shown .xtemp F7 = some (.xTemp 0#11 true 0#12) := by decide +kernel
theorem test_xhum_d7 : shown .xhum F1 = some (.xHumidity 35#8) := by decide +kernel
theorem test_xhum_d8 : shown .xhum F5 = some (.xHumidity 165#8) := by decide +kernel
theorem test_xwavg_d9 : shown .xwavg F1 = some (.xWindAvg 17#11) := by decide +kernel
theorem test_xwavg_d11 : shown .xwavg F8 = some (.xWindAvg 0#11) := by decide +kernel
theorem test_xrain_d12 : shown .xrain F1 = some (.xRain 248#11) := by decide +kernel
theorem test_xrain_d13 : shown .xrain F8 = some (.xRain 1000#11) := by decide +kernel

/-! ### Primitives -/

theorem test_byte : shown (.byte 25) F2 = some (.byte 0x81#8) := by decide +kernel
theorem test_byte_first : shown (.byte 0) F1 = some (.byte 0xE2#8) := by decide +kernel
theorem test_lonib_b13 : shown (.lonib 22) F1 = some (.lonib 5#4) := by decide +kernel
theorem test_hinib_b13 : shown (.hinib 22) F1 = some (.hinib 3#4) := by decide +kernel
theorem test_bit7_set : shown (.bit7 25) F2 = some (.bit7 true) := by decide +kernel
theorem test_bit7_clear : shown (.bit7 25) F8 = some (.bit7 false) := by decide +kernel
theorem test_bcd3_d14 : shown (.bcd3 3#4 2#4 1#4) F1 = some (.bcd3 123#11) := by decide +kernel
theorem test_bcd3_max : shown (.bcd3 15#4 15#4 15#4) F1 = some (.bcd3 1665#11) := by decide +kernel
/-- K12. -/
theorem test_popcnt8_k12 : [0x00, 0x01, 0x80, 0x0F, 0x7B, 0xFF].map popcnt8 = [0, 1, 1, 4, 6, 8] := by
  decide
theorem test_popcnt8 : shown (.popcnt8 0x7B#8) F1 = some (.popcnt8 6) := by decide +kernel
/-- D15. -/
theorem test_neg12_d15 : neg12 0#12 = 0#12 ∧ neg12 0x07B#12 = 0xF85#12 ∧ neg12 0x681#12 = 0x97F#12 := by
  decide

/-! ### The whole call -/

/-- O1. -/
theorem test_decode_o1 : decodeRaw F1 =
    .decoded ⟨0x7B#8, 123#11, false, 35#8, 4#4, 44#12, 17#11, 248#11, true⟩ := by decide +kernel
/-- O9: nibbles above 9 and the unextracted bits. -/
theorem test_decode_o9 : decodeRaw F8 =
    .decoded ⟨0x10#8, 1311#11, false, 100#8, 0#4, 4095#12, 0#11, 1000#11, true⟩ := by decide +kernel
/-- O4. -/
theorem test_decode_o4 : decodeRaw F4 = .checksumError 0x21#8 0x1D#8 := by decide +kernel
/-- O3, O13, O15: columns 4, 0 and 12. -/
theorem test_decode_parity : decodeRaw F3 = .parityError 4#4 ∧ decodeRaw F12 = .parityError 0#4 ∧
    decodeRaw F17 = .parityError 0#4 ∧ decodeRaw F15 = .parityError 12#4 := by decide +kernel
/-- The end state of run 1, by `DECODE`. -/
theorem test_decode_instr : (blockAfter (.decode F1) State.reset).map
    (fun b => (b.seq, b.errCol, b.ckExpected, b.ckActual, b.outputs.tempTenths)) =
      some (.decoded, 0#4, 0x1D#8, 0x1D#8, 0x07B#12) := by decide +kernel
/-- R110 on the data bytes of F1. -/
theorem test_encode_frame : encodeFrame (F1.extractLsb' 120 96) = F1 := by decide +kernel
/-- S4, S7 as rationals: 12.3 and 90. -/
theorem test_physical : (readingOf (Frame.payload F1)).temperatureCelsius = 123 / 10 ∧
    (readingOf (Frame.payload F1)).windDirectionDegrees = 90 := by
  have h1 : (readingOf (Frame.payload F1)).tempTenths.toInt = 123 := by decide +kernel
  have h2 : (readingOf (Frame.payload F1)).windDirRaw.toNat = 4 := by decide +kernel
  refine ⟨?_, ?_⟩
  · rw [WeatherReading.temperatureCelsius, h1]
    norm_num [Config.tenth]
  · rw [WeatherReading.windDirectionDegrees, h2]
    norm_num [Config.dirStep]

/-! ### Witnesses: the hypotheses of each statement are met -/

def quiet : Inputs := ⟨false, false, 0#216⟩
def called (f : Frame) : State := withInputs [⟨false, true, f⟩, quiet, quiet, quiet] State.reset

theorem witness_resting :
    State.reset.block.seq ∈ [SeqState.idle, .decoded, .parityFailed, .checksumFailed] ∧
    (atSeq .checksumFailed F4).block.seq ∈
      [SeqState.idle, .decoded, .parityFailed, .checksumFailed] := by decide
theorem witness_LoadCopiesFrameAndClears :
    (Instr.loadTerminal .checksumFailed F1 = .loadIdle F1 ∨
      Instr.loadTerminal .checksumFailed F1 = .loadTerminal .checksumFailed F1) ∧
    (atSeq .checksumFailed F4).block.seq ∈
      [SeqState.idle, .decoded, .parityFailed, .checksumFailed] := by decide
theorem witness_HoldWritesNothing :
    (withInputs [quiet] (atSeq .parityFailed F3)).block.seq ∈
      [SeqState.idle, .decoded, .parityFailed, .checksumFailed] ∧
    (withInputs [quiet] (atSeq .parityFailed F3)).pins.rst = false ∧
    (withInputs [quiet] (atSeq .parityFailed F3)).pins.start = false := by decide
theorem witness_ParchkVerdict_passes : (atSeq .start F1).block.seq = .start ∧
    ∀ col, col < 13 → ColumnHolds (atSeq .start F1).block.payload col := by decide +kernel
theorem witness_ParchkVerdict_fails :
    FirstBadColumn (atSeq .start F17).block.payload 0 ∧
    FirstBadColumn (atSeq .start F3).block.payload 4 ∧
    FirstBadColumn (atSeq .start F15).block.payload 12 := by decide +kernel
theorem witness_CksumVerdict : (atSeq .parityChecked F1).block.seq = .parityChecked ∧
    ((atSeq .parityChecked F5).block.payload 13).toNat = setBits (atSeq .parityChecked F5).block.payload ∧
    ((atSeq .parityChecked K11).block.payload 13).toNat ≠
      setBits (atSeq .parityChecked K11).block.payload := by decide +kernel
theorem witness_ExtractWritesTheReading :
    (atSeq .checksumChecked F1).block.seq = .checksumChecked := by decide
theorem witness_DecodeFunctionByCases :
    FirstBadColumn (Frame.payload F3) 4 ∧
    (∀ col, col < 13 → ColumnHolds (Frame.payload F4) col) ∧
    (Frame.payload F4 13).toNat ≠ setBits (Frame.payload F4) ∧
    (∀ col, col < 13 → ColumnHolds (Frame.payload F1) col) ∧
    (Frame.payload F1 13).toNat = setBits (Frame.payload F1) := by decide +kernel
theorem witness_CallComputesDecode : restingState (called F1).block.seq = true ∧
    (called F1).inputs = ⟨false, true, F1⟩ :: quiet :: quiet :: quiet :: [] ∧ quiet.rst = false := by
  decide +kernel
theorem witness_CallProtocolDelivers : restingState State.reset.block.seq = true ∧
    (withInputs (callInputs F1 F5 F12 F3) State.reset).inputs = callInputs F1 F5 F12 F3 ++ [] := by
  decide +kernel
theorem witness_CallEndsWithinThreeSteps :
    (withInputs [quiet, quiet, quiet] (atSeq .start F1)).block.seq = .start ∧
    (withInputs [quiet, quiet, quiet] (atSeq .start F1)).inputs = quiet :: quiet :: quiet :: [] := by
  decide +kernel
theorem witness_CallForgetsThePast :
    restingState (called F1).block.seq = true ∧
    restingState (withInputs (called F1).inputs (atSeq .decoded F2)).block.seq = true ∧
    (called F1).inputs = ⟨false, true, F1⟩ :: [quiet, quiet, quiet] ∧
    (withInputs (called F1).inputs (atSeq .decoded F2)).inputs =
      ⟨false, true, F1⟩ :: [quiet, quiet, quiet] ∧ 3 ≤ [quiet, quiet, quiet].length := by
  decide +kernel
theorem witness_ParityErrorComesFirst : (atSeq .start F3).block.Inv ∧
    (atSeq .start F3).block.seq = .start ∧ FirstBadColumn (atSeq .start F3).block.payload 4 := by
  refine ⟨⟨Memory.ofFrame_wf F3, ?_⟩, rfl, by decide +kernel⟩
  simp [atSeq]
theorem witness_StepRunsTheDecodedInstruction :
    decodeBytes (fetch (withInputs [quiet] (atSeq .start F1))) =
      .ok (.parchk false, Frame.bytes 0#216) ∧
    ∃ t, exec (.parchk false) (withInputs [quiet] (atSeq .start F1)) = .next t :=
  ⟨by decide +kernel, _, exec_parchk _ _⟩
theorem witness_step_answers_everywhere (s : State) : ∃ t, step s = .next t := by
  obtain ⟨b, e⟩ := step_answers s
  exact ⟨_, e⟩
theorem witness_StateTransitionTable :
    (withInputs [⟨true, true, F1⟩] (atSeq .start F1)).pins.rst = true ∧
    (called F1).pins.rst = false ∧ (called F1).pins.start = true ∧
    (withInputs [quiet] (atSeq .decoded F1)).pins.start = false ∧
    (∃ col, col < 13 ∧ ¬ ColumnHolds (withInputs [quiet] (atSeq .start F15)).block.payload col) := by
  refine ⟨by decide, by decide, by decide, by decide, 12, by decide, by decide +kernel⟩
theorem witness_HeldResetKeepsResetValues :
    0 + 1 ≤ (withInputs [⟨true, true, F1⟩] (atSeq .start F1)).inputs.length ∧
    ∀ p, p ∈ (withInputs [⟨true, true, F1⟩] (atSeq .start F1)).inputs.take (0 + 1) → p.rst = true := by
  decide +kernel
theorem witness_TerminalStatesHold :
    doneOf (withInputs [quiet] (atSeq .checksumFailed F4)).block.seq = true ∧
    1 ≤ (withInputs [quiet] (atSeq .checksumFailed F4)).inputs.length ∧
    ∀ p, p ∈ (withInputs [quiet] (atSeq .checksumFailed F4)).inputs.take 1 →
      p.rst = false ∧ p.start = false := by decide +kernel
theorem witness_StartIsIgnoredWhileBusy :
    busyOf (atSeq .start F1).block.seq = true ∧ busyOf (atSeq .parityChecked F1).block.seq = true ∧
    busyOf (atSeq .checksumChecked F1).block.seq = true ∧ quiet.rst = false := by decide
theorem witness_FrameInIsReadByLoadOnly :
    (⟨true, true, F1⟩ : Inputs).rst = true ∧ quiet.start = false ∧
    busyOf (atSeq .start F1).block.seq = true := by decide
theorem witness_exec_answers (i : Instr) (s : State) : ∃ t, exec i s = .next t := by
  rcases exec_cases i s with ⟨b, e, _⟩ | ⟨v, e, _⟩
  · exact ⟨_, e⟩
  · exact ⟨_, e⟩
theorem witness_OnlyTheChecksRaise :
    (blockAfter (.parchk false) (atSeq .start F3)).map (·.seq) = some .parityFailed ∧
    (blockAfter (.cksum false) (atSeq .parityChecked F4)).map (·.seq) = some .checksumFailed ∧
    (blockAfter (.extract false) (atSeq .checksumChecked F1)).map (·.seq) = some .decoded := by
  decide +kernel
theorem witness_DecodeOfEncode : (Instr.loadTerminal .decoded F1).WellFormed ∧
    encode (.loadTerminal .decoded F1) = some (.step, 0b00001100#8 :: Frame.bytes F1) := by
  decide +kernel
theorem witness_EncodeOfDecode :
    decodeAs .step [0b00010000#8, 0xAA#8] = .ok (.reset false 0#3, [0xAA#8]) ∧
    decodeAs .frame27 (Frame.bytes F1) = .ok (.decode F1, []) := by decide +kernel
theorem witness_OperationMapMatchesTheTable :
    (0b10111#5).getLsbD 4 = true ∧ (0b00110#5).extractLsb' 0 3 ≠ 7#3 ∧
    (0b01111#5).getLsbD 4 = false ∧ (0b01111#5).extractLsb' 0 3 = 7#3 := by decide
theorem witness_invariant_at_reset : Block.atReset.Inv := ⟨rfl, rfl⟩
theorem witness_invariant_start : (Block.loaded F12).Inv ∧ (Block.loaded F12).seq = .start := by
  refine ⟨⟨by decide +kernel, ?_⟩, rfl⟩
  exact ⟨rfl, rfl, rfl, rfl⟩
theorem witness_invariant_parityChecked :
    (Block.loaded F4).parchk.Inv ∧ (Block.loaded F4).parchk.seq = .parityChecked := by
  have h : (Block.loaded F4).parchk.seq = .parityChecked := by decide +kernel
  refine ⟨⟨by decide +kernel, ?_⟩, h⟩
  rw [h]
  exact ⟨by decide +kernel, by decide +kernel, by decide +kernel, by decide +kernel, by decide +kernel⟩
/-- F5 has the largest count, 96. -/
theorem witness_invariant_checksumChecked :
    (Block.loaded F5).parchk.cksum.Inv ∧ (Block.loaded F5).parchk.cksum.seq = .checksumChecked := by
  have h : (Block.loaded F5).parchk.cksum.seq = .checksumChecked := by decide +kernel
  refine ⟨⟨by decide +kernel, ?_⟩, h⟩
  rw [h]
  exact ⟨by decide +kernel, by decide +kernel, by decide +kernel, by decide +kernel,
    by decide +kernel, by decide +kernel⟩
theorem witness_invariant_decoded : (Block.wholeCall F1).Inv ∧ (Block.wholeCall F1).seq = .decoded := by
  have h : (Block.wholeCall F1).seq = .decoded := by decide +kernel
  refine ⟨⟨by decide +kernel, ?_⟩, h⟩
  rw [h]
  exact ⟨by decide +kernel, by decide +kernel, by decide +kernel, by decide +kernel,
    by decide +kernel, by decide +kernel⟩
theorem witness_invariant_parityFailed :
    (Block.wholeCall F15).Inv ∧ (Block.wholeCall F15).seq = .parityFailed := by
  have h : (Block.wholeCall F15).seq = .parityFailed := by decide +kernel
  refine ⟨⟨by decide +kernel, ?_⟩, h⟩
  rw [h]
  exact ⟨by decide +kernel, by decide +kernel, by decide +kernel, by decide +kernel, by decide +kernel⟩
theorem witness_invariant_checksumFailed :
    (Block.wholeCall F4).Inv ∧ (Block.wholeCall F4).seq = .checksumFailed := by
  have h : (Block.wholeCall F4).seq = .checksumFailed := by decide +kernel
  refine ⟨⟨by decide +kernel, ?_⟩, h⟩
  rw [h]
  exact ⟨by decide +kernel, by decide +kernel, by decide +kernel, by decide +kernel,
    by decide +kernel, by decide +kernel⟩
theorem witness_FrameBufferFormIsKept : (atSeq .start F1).block.fb.wf = true := Memory.ofFrame_wf F1
theorem witness_flips : parityCheck (Frame.payload F1) = .ok ∧ ckOk (Frame.payload F1) = true ∧
    8 ≤ 8 ∧ 215 < 216 ∧ 120 ≤ 120 ∧ 111 < 112 := by decide +kernel
theorem witness_DeclaredAbove96NeverPasses : 96 < (Frame.payload K11 13).toNat := by decide +kernel
/-- A packet arrives at an armed receiver, the loop processes it; without a sensor it does not; an unarmed
receiver takes no packet. -/
theorem witness_HostDutiesAndFlag :
    let h : HostState := ⟨false, true, none⟩
    h.armed = true ∧ (h.interrupt.poll true).1 = true ∧ (h.interrupt.poll false).1 = false ∧
      (HostState.mk false false none).armed = false := by decide
/-- R242, R216: a packet that arrives before the receiver is re-armed is not seen, one after it is. -/
theorem test_rearm_enables : (HostState.mk false false none).interrupt.packetReady = false ∧
    (HostState.mk false false none).rearm.interrupt.packetReady = true := by decide
/-- R212, R224: a call needs a checked frame and a resting state; a reset edge is at liberty. -/
theorem test_hostConforms :
    (withInputs [⟨false, true, F12⟩] State.reset).hostConforms = true ∧
    (withInputs [⟨false, true, 0#216⟩] State.reset).hostConforms = false ∧
    (withInputs [⟨false, true, F1⟩] (atSeq .start F1)).hostConforms = false ∧
    (withInputs [⟨true, true, 0#216⟩] (atSeq .start F1)).hostConforms = true := by decide +kernel
/-- R195, run 1: the ports after `DECODE` of F1. -/
theorem test_ports_f1 : (blockAfter (.decode F1) State.reset).map (fun b =>
    (b.outputs.result, b.outputs.sensorId, b.outputs.humidity, b.outputs.windDirRaw)) =
      some (1#2, 0x7B#8, 35#8, 4#4) := by decide +kernel
theorem test_ports_f1_rest : (blockAfter (.decode F1) State.reset).map (fun b =>
    (b.outputs.windGustTenths, b.outputs.windAvgTenths, b.outputs.rainTenths, b.outputs.batteryOk)) =
      some (44#12, 17#11, 248#11, true) := by decide +kernel
theorem witness_AcceptedFramesAreEncodedFrames : hostMayCall F1 = true ∧
    ∃ r, decodeRaw F1 = .decoded r := ⟨by decide +kernel, _, test_decode_o1⟩

end Sys2Proof.Tests
end

section
/-! PROOFS. The family of 00_scope.md: every step answers, what no instruction touches, and that an
accepted frame's outcome is `decode` of it. The call is followed backwards from its last edge: what each
busy state still delivers, and after how many edges. -/

namespace Sys2Proof.Machine

/-! ### Every step answers -/

/-- Settles O25: the step is one of the six operations on the block, and then the edge passes. -/
theorem everyStepAnswers : Obligations.EveryStepAnswers := by
  intro s
  obtain ⟨b, e⟩ := step_answers s
  exact ⟨_, e, by simp, by simp, by simp⟩

/-! ### The model's own fields -/

/-- No operation of an edge, and not `DECODE`, is an extractor or a primitive. -/
theorem blockMnemonics_disjoint_lookMnemonics :
    ∀ m ∈ ["RESET", "LOAD", "HOLD", "PARCHK", "CKSUM", "EXTRACT", "DECODE"],
      m ∉ ["XSID", "XWDIR", "XGUST", "XBATT", "XTEMP", "XHUM", "XWAVG", "XRAIN", "BYTE", "LONIB",
        "HINIB", "BIT7", "BCD3", "POPCNT8"] := by
  decide

/-- Settles O32: an instruction replaces the block or looks at an output, and only the extractors and the
primitives do the latter. -/
theorem operationsKeepTheModelsOwnFields : Obligations.OperationsKeepTheModelsOwnFields := by
  intro i s t h
  rcases exec_cases i s with ⟨b, e, -⟩ | ⟨v, e, hlook⟩
  · cases e.symm.trans h
    exact ⟨by simp, by simp, fun _ => by simp⟩
  · cases e.symm.trans h
    exact ⟨by simp, by simp, fun hblock =>
      absurd hlook (blockMnemonics_disjoint_lookMnemonics _ hblock)⟩

/-! ### What `decode` answers, by the two checks -/

theorem decodePayload_of_parity_fail {P : Payload} {col : Nat} (h : parityCheck P = .fail col) :
    decodePayload P = .parityError (BitVec.ofNat 4 col) := by
  simp [decodePayload, h]

theorem decodePayload_of_checksum_mismatch {P : Payload} (h : parityCheck P = .ok)
    (hk : ckOk P = false) : decodePayload P = .checksumError (P 13) (ckActualW P) := by
  simp [decodePayload, h, checksumCheck, hk, ckExpectedW]

theorem decodePayload_of_checks_ok {P : Payload} (h : parityCheck P = .ok) (hk : ckOk P = true) :
    decodePayload P = .decoded (readingOf P) := by
  simp [decodePayload, h, checksumCheck, hk]

/-! ### What a busy state still delivers -/

/-- The edges from `Start` to an outcome (R193, R275). -/
def CallOutcome.edges : CallOutcome → Nat
  | .parityError _ => 1
  | .checksumError _ _ => 2
  | .decoded _ => 3

/-- After exactly `n` edges the block holds the outcome `o`, and it is busy until then. -/
def State.Delivers (s : State) (n : Nat) (o : CallOutcome) : Prop :=
  ∃ t, Host.Core.run core n s = .next t ∧ t.block.outcome? = some o ∧
    ∀ m u, m < n → Host.Core.run core m s = .next u → busyOf u.block.seq = true

/-- A block that holds an outcome is done. -/
theorem Block.done_of_outcome {b : Block} {o : CallOutcome} (h : b.outcome? = some o) :
    doneOf b.seq = true := by
  cases hq : b.seq <;> simp [Block.outcome?, hq] at h <;> rfl

theorem State.delivers_zero {s : State} {o : CallOutcome} (h : s.block.outcome? = some o) :
    s.Delivers 0 o :=
  ⟨s, run_zero s, h, fun _ _ hm _ => absurd hm (Nat.not_lt_zero _)⟩

/-- One more busy edge before a delivery. -/
theorem State.delivers_succ {s t : State} {n : Nat} {o : CallOutcome}
    (hb : busyOf s.block.seq = true) (h : step s = .next t) (ht : t.Delivers n o) :
    s.Delivers (n + 1) o := by
  obtain ⟨w, hrun, ho, hbusy⟩ := ht
  refine ⟨w, by rw [run_succ h, hrun], ho, fun m u hm hu => ?_⟩
  cases m with
  | zero => cases hu; exact hb
  | succ m => exact hbusy m u (Nat.lt_of_succ_lt_succ hm) (by rw [← run_succ h, hu])

section
variable {s : State} {p1 p2 p3 : Inputs} {rest : List Inputs}

/-- `EXTRACT` finishes the call (R190). -/
theorem State.delivers_of_checksumChecked (hq : s.block.seq = .checksumChecked)
    (hi : s.inputs = p1 :: rest) (h1 : p1.rst = false) :
    s.Delivers 1 (.decoded (readingOf s.block.payload)) := by
  have hstep := step_extract (s := s) (by rw [State.pins_of_inputs hi, h1]) hq
  exact State.delivers_succ (by rw [hq]; rfl) hstep (State.delivers_zero rfl)

/-- `CKSUM` finishes the call where the checksum does not hold (R186, R233). -/
theorem State.delivers_of_checksum_mismatch (hq : s.block.seq = .parityChecked)
    (hk : ckOk s.block.payload = false) (hi : s.inputs = p1 :: rest) (h1 : p1.rst = false) :
    s.Delivers 1 (.checksumError (s.block.payload 13) (ckActualW s.block.payload)) := by
  have hstep := step_cksum (s := s) (by rw [State.pins_of_inputs hi, h1]) hq
  rcases s.block.cksum_cases with ⟨hk', -⟩ | ⟨-, -, e⟩
  · simp [hk] at hk'
  · exact State.delivers_succ (by rw [hq]; rfl) hstep
      (State.delivers_zero (by simp [e, Block.outcome?]))

/-- `CKSUM` and then `EXTRACT` finish the call where the checksum holds (R186, R190). -/
theorem State.delivers_of_checksum_ok (hq : s.block.seq = .parityChecked)
    (hk : ckOk s.block.payload = true) (hi : s.inputs = p1 :: p2 :: rest) (h1 : p1.rst = false)
    (h2 : p2.rst = false) : s.Delivers 2 (.decoded (readingOf s.block.payload)) := by
  have hstep := step_cksum (s := s) (by rw [State.pins_of_inputs hi, h1]) hq
  rcases s.block.cksum_cases with ⟨-, e⟩ | ⟨hk', -, -⟩
  · have hlast := State.delivers_of_checksumChecked (s := (s.setBlock s.block.cksum).advance)
      (p1 := p2) (rest := rest) (by simp [e]) (by simp [hi]) h2
    simp only [State.advance_block, State.setBlock_block, Block.cksum_payload] at hlast
    exact State.delivers_succ (by rw [hq]; rfl) hstep hlast
  · simp [hk] at hk'

/-- From `Start` the call delivers `decode` of the payload, after the edges of that outcome (R193, R195). -/
theorem State.delivers_of_start (hq : s.block.seq = .start)
    (hi : s.inputs = p1 :: p2 :: p3 :: rest) (h1 : p1.rst = false) (h2 : p2.rst = false)
    (h3 : p3.rst = false) :
    s.Delivers (decodePayload s.block.payload).edges (decodePayload s.block.payload) := by
  have hb : busyOf s.block.seq = true := by rw [hq]; rfl
  have hstep := step_parchk (s := s) (by rw [State.pins_of_inputs hi, h1]) hq
  rcases s.block.parchk_cases with ⟨hpar, e⟩ | ⟨col, -, hpar, e⟩
  · have hseq : (s.setBlock s.block.parchk).advance.block.seq = .parityChecked := by simp [e]
    have hin : (s.setBlock s.block.parchk).advance.inputs = p2 :: p3 :: rest := by simp [hi]
    have hpay : (s.setBlock s.block.parchk).advance.block.payload = s.block.payload := by simp
    cases hk : ckOk s.block.payload with
    | false =>
      have hlast := State.delivers_of_checksum_mismatch hseq (by rw [hpay, hk]) hin h2
      rw [hpay] at hlast
      rw [decodePayload_of_checksum_mismatch hpar hk]
      exact State.delivers_succ hb hstep hlast
    | true =>
      have hlast := State.delivers_of_checksum_ok hseq (by rw [hpay, hk]) hin h2 h3
      rw [hpay] at hlast
      rw [decodePayload_of_checks_ok hpar hk]
      exact State.delivers_succ hb hstep hlast
  · rw [decodePayload_of_parity_fail hpar]
    exact State.delivers_succ hb hstep (State.delivers_zero (by simp [e, Block.outcome?]))

end

/-- Settles O17: the accepting edge loads the frame into `Start`, and from there the call delivers `decode`
of its payload. -/
theorem callComputesDecode : Obligations.CallComputesDecode := by
  intro s frame p1 p2 p3 rest hrest hi h1 h2 h3
  have hpins := State.pins_of_inputs hi
  have hload := step_load (s := s) (by rw [hpins]) (by rw [hpins]) hrest
  rw [hpins] at hload
  have hcall := State.delivers_of_start (s := (s.setBlock (Block.loaded frame)).advance)
    (p1 := p1) (p2 := p2) (p3 := p3) (rest := rest) (by simp) (by simp [hi]) h1 h2 h3
  simp only [State.advance_block, State.setBlock_block, Block.loaded_payload] at hcall
  obtain ⟨t, hrun, ho, hbusy⟩ := hcall
  refine ⟨(decodeRaw frame).edges, t, rfl, ?_, Block.done_of_outcome ho, ho,
    Block.shows_of_outcome ho, fun m u hm hu => hbusy m u hm ?_⟩
  · rw [run_succ hload]
    exact hrun
  · rw [← run_succ hload, hu]

end Sys2Proof.Machine
end

section
/-! PROOFS. The family of 10_state.md: the flags by state, the ranges of the registers, how a step advances
`STATE`, which instruction writes which register, and what the invariant says of each register. -/

namespace Sys2Proof.Machine

/-! ### The flags (R24, R25) -/

theorem busyOf_iff (q : SeqState) :
    busyOf q = true ↔ q = .start ∨ q = .parityChecked ∨ q = .checksumChecked := by
  cases q <;> simp [busyOf]

theorem doneOf_iff (q : SeqState) :
    doneOf q = true ↔ q = .decoded ∨ q = .parityFailed ∨ q = .checksumFailed := by
  cases q <;> simp [doneOf]

theorem readingValidOf_iff (q : SeqState) : readingValidOf q = true ↔ q = .decoded := by
  cases q <;> simp [readingValidOf]

theorem resultOf_decoded_iff (q : SeqState) : resultOf q = 1#2 ↔ q = .decoded := by
  cases q <;> simp [resultOf]

theorem resultOf_parityError_iff (q : SeqState) : resultOf q = 2#2 ↔ q = .parityFailed := by
  cases q <;> simp [resultOf]

theorem resultOf_checksumError_iff (q : SeqState) : resultOf q = 3#2 ↔ q = .checksumFailed := by
  cases q <;> simp [resultOf]

theorem resultOf_none_iff (q : SeqState) : resultOf q = 0#2 ↔ doneOf q = false := by
  cases q <;> simp [resultOf, doneOf]

/-- Settles O39: each flag by its own table over the seven states. -/
theorem statusFlagsByState : Obligations.StatusFlagsByState := fun q =>
  ⟨busyOf_iff q, doneOf_iff q, readingValidOf_iff q, resultOf_decoded_iff q,
    resultOf_parityError_iff q, resultOf_checksumError_iff q, resultOf_none_iff q⟩

/-! ### The signed temperature (R38) -/

theorem zext12_toNat (v : BitVec 11) : (zext12 v).toNat = v.toNat := by
  have h := v.isLt
  simp only [zext12, BitVec.toNat_setWidth]
  omega

/-- The 12-bit negation of R10 is the one of `BitVec`. -/
theorem neg12_eq_neg (v : BitVec 12) : neg12 v = -v :=
  BitVec.eq_of_toNat_eq (by simp [neg12, BitVec.toNat_neg])

/-- An 11-bit magnitude is below the sign bit of twelve. -/
theorem zext12_toInt (v : BitVec 11) : (zext12 v).toInt = v.toNat := by
  have h := v.isLt
  rw [BitVec.toInt_eq_toNat_of_lt (by rw [zext12_toNat]; omega), zext12_toNat]

/-- The sign and the magnitude as one integer, negative zero included (R163). -/
theorem signedTenths_toInt (neg : Bool) (mag : BitVec 11) :
    (signedTenths neg mag).toInt = if neg then -(mag.toNat : Int) else mag.toNat := by
  cases neg with
  | false => exact zext12_toInt mag
  | true =>
    have h := mag.isLt
    simp only [signedTenths, if_true, neg12_eq_neg]
    rw [BitVec.toInt_neg, zext12_toInt, Int.bmod_eq_of_le] <;> omega

/-- Settles O12: `temp_tenths` is the signed value of its two registers. -/
theorem tempTenthsIsSignAndMagnitude : Obligations.TempTenthsIsSignAndMagnitude := fun r =>
  signedTenths_toInt r.tempNeg r.tempMag

/-! ### The count, bit by bit (R131) -/

/-- `POPCNT8` counts the bits that are 1 (R134). -/
theorem popcnt8_eq_countP (b : Byte) : popcnt8 b = (List.range 8).countP b.getLsbD := by
  simp only [popcnt8, List.range_succ, List.range_zero, List.countP_append, List.countP_singleton,
    List.countP_nil, Bool.toNat, Bool.cond_eq_ite, Nat.zero_add]

/-- The bits of `m` bytes counted one by one are the sum of the bytes' counts. -/
theorem countP_bits (Q : Nat → Byte) (m : Nat) :
    (List.range (8 * m)).countP (fun n => (Q (n / 8)).getLsbD (n % 8)) =
      ((List.range m).map (fun j => popcnt8 (Q j))).sum := by
  induction m with
  | zero => rfl
  | succ m ih =>
    have last : ((List.range 8).map (8 * m + ·)).countP (fun n => (Q (n / 8)).getLsbD (n % 8)) =
        popcnt8 (Q m) := by
      rw [popcnt8_eq_countP, List.countP_map]
      refine List.countP_congr fun j hj => ?_
      have hj : j < 8 := List.mem_range.1 hj
      have hdiv : (8 * m + j) / 8 = m := by omega
      have hmod : (8 * m + j) % 8 = j := by omega
      simp only [Function.comp, hdiv, hmod]
    rw [Nat.mul_succ, List.range_add, List.countP_append, ih, last, List.range_succ, List.map_append,
      List.sum_append, List.map_singleton, List.sum_singleton]

theorem setBits_eq_bitCount (P : Payload) : setBits P = bitCount P :=
  List.countP_eq_length_filter.symm.trans (countP_bits (fun j => P (14 + j)) 12)

/-! ### The fields of a reading (R94) -/

/-- The sign nibble (R146). -/
theorem xTempNeg_eq (P : Payload) : xTempNeg P = decide ((P 25).toNat % 16 ≠ 0) := by
  rw [xTempNeg, ← lonib_toNat, Bool.eq_iff_iff, bne_iff_ne, decide_eq_true_iff, ne_eq,
    ← BitVec.toNat_inj]
  rfl

/-- Bit 7 of a byte is set from 128 on (R150). -/
theorem bit7_eq (P : Payload) (k : Nat) : bit7 P k = decide (128 ≤ (P k).toNat) := by
  have mask : Config.battMask = BitVec.twoPow 8 7 := rfl
  have msb : (P k).getLsbD 7 = decide (128 ≤ (P k).toNat) := BitVec.msb_eq_decide (P k)
  rw [bit7, mask, BitVec.and_twoPow, msb]
  cases decide (128 ≤ (P k).toNat) <;> rfl

/-- Two digits are exact in 8 bits (R164). -/
theorem xHumidity_toNat (P : Payload) :
    (xHumidity P).toNat = (P 22).toNat % 16 + 10 * ((P 22).toNat / 16) := by
  have h := (P 22).isLt
  simp only [xHumidity, BitVec.toNat_ofNat, lonib_toNat, hinib_toNat]
  omega

/-- A nibble above a byte (R144). -/
theorem xWindGust_toNat (P : Payload) :
    (xWindGust P).toNat = 256 * ((P 17).toNat % 16) + (P 16).toNat := by
  rw [xWindGust, BitVec.toNat_append, ← Nat.shiftLeft_add_eq_or_of_lt (byteAt P 16).isLt,
    Nat.shiftLeft_eq, lonib_toNat, Nat.mul_comm]
  rfl

/-- The decimal combiner on a byte and the low nibble of another (R162, R165, R168). -/
theorem bcd3Word_bytes_toNat (P : Payload) (k l : Nat) :
    (bcd3Word (lonib P k) (hinib P k) (lonib P l)).toNat =
      (P k).toNat % 16 + 10 * ((P k).toNat / 16) + 100 * ((P l).toNat % 16) := by
  rw [bcd3Word_toNat, bcd3, lonib_toNat, hinib_toNat, lonib_toNat]

/-- The battery is good below 128 (R145). -/
theorem xBatteryOk_eq (P : Payload) : xBatteryOk P = decide ((P 25).toNat < 128) := by
  rw [xBatteryOk, bit7_eq, ← decide_not, Bool.decide_congr Nat.not_le]

/-- The extractors compute the field table (R190). -/
theorem readingOf_isOf (P : Payload) : (readingOf P).IsOf P :=
  ⟨rfl, bcd3Word_bytes_toNat P 20 21, xTempNeg_eq P, xHumidity_toNat P, hinib_toNat P 17,
    xWindGust_toNat P, bcd3Word_bytes_toNat P 18 19, bcd3Word_bytes_toNat P 23 24, xBatteryOk_eq P⟩

/-! ### The ranges (R169) -/

theorem WeatherReading.IsOf.tempTenths_toInt {r : WeatherReading} {P : Payload} (h : r.IsOf P) :
    r.tempTenths.toInt =
      if (P 25).toNat % 16 ≠ 0 then
        -(((P 20).toNat % 16 + 10 * ((P 20).toNat / 16) + 100 * ((P 21).toNat % 16) : Nat) : Int)
      else ((P 20).toNat % 16 + 10 * ((P 20).toNat / 16) + 100 * ((P 21).toNat % 16) : Nat) := by
  obtain ⟨-, hmag, hneg, -⟩ := h
  rw [WeatherReading.tempTenths, signedTenths_toInt, hmag, hneg]
  simp only [decide_eq_true_eq]

/-- A sign does not take a magnitude out of its range. -/
theorem WeatherReading.tempTenths_bounds {r : WeatherReading} {m : Nat} (h : r.tempMag.toNat ≤ m) :
    -(m : Int) ≤ r.tempTenths.toInt ∧ r.tempTenths.toInt ≤ m := by
  rw [WeatherReading.tempTenths, signedTenths_toInt]
  split <;> omega

/-- Settles O13: the fields are the exact sums; three nibbles combine to at most 1665 and two to at most
165. -/
theorem fieldsStayInRange : Obligations.FieldsStayInRange := by
  intro P
  have hof := readingOf_isOf P
  have hmag : (readingOf P).tempMag.toNat ≤ 1665 := (bcd3Word_toNat ..).trans_le (bcd3_le ..)
  have havg : (readingOf P).windAvgTenths.toNat ≤ 1665 := (bcd3Word_toNat ..).trans_le (bcd3_le ..)
  have hrain : (readingOf P).rainTenths.toNat ≤ 1665 := (bcd3Word_toNat ..).trans_le (bcd3_le ..)
  have hhum : (readingOf P).humidity.toNat ≤ 165 := by
    have h := (P 22).isLt
    have e : (readingOf P).humidity.toNat = _ := xHumidity_toNat P
    omega
  have hgust : (readingOf P).windGustTenths.toNat ≤ 4095 :=
    Nat.le_of_lt_succ (readingOf P).windGustTenths.isLt
  have hdir : (readingOf P).windDirRaw.toNat ≤ 15 := Nat.le_of_lt_succ (readingOf P).windDirRaw.isLt
  obtain ⟨hlow, hhigh⟩ := WeatherReading.tempTenths_bounds hmag
  exact ⟨hof, hof.tempTenths_toInt, hmag, hhum, havg, hrain, hgust, hdir, hlow, hhigh,
    by rw [ckActualW_toNat, setBits_eq_bitCount], by rw [setBits_eq_bitCount]; exact bitCount_le P⟩

/-! ### How a step advances `STATE` (R23) -/

theorem Block.parchk_seq_of_ok {b : Block} (h : parityCheck b.payload = .ok) :
    b.parchk.seq = .parityChecked := by
  rcases b.parchk_cases with ⟨-, e⟩ | ⟨col, -, hf, -⟩
  · rw [e]
  · simp [h] at hf

theorem Block.parchk_seq_of_not_ok {b : Block} (h : parityCheck b.payload ≠ .ok) :
    b.parchk.seq = .parityFailed := by
  rcases b.parchk_cases with ⟨hok, -⟩ | ⟨col, -, -, e⟩
  · exact absurd hok h
  · rw [e]

theorem Block.cksum_seq (b : Block) :
    b.cksum.seq = if ckOk b.payload then .checksumChecked else .checksumFailed := by
  rcases b.cksum_cases with ⟨h, e⟩ | ⟨h, -, e⟩ <;> simp [e, h]

/-- The checksum holds exactly where the declared byte is the number of 1 bits (R132). -/
theorem ckOk_iff_setBits (P : Payload) : ckOk P = true ↔ (P 13).toNat = setBits P := by
  rw [ckOk_iff, setBits_eq_bitCount]

/-- The resting states by name. -/
theorem restingState_of_mem {q : SeqState}
    (h : q ∈ [SeqState.idle, .decoded, .parityFailed, .checksumFailed]) : restingState q = true := by
  revert h
  cases q <;> decide

/-- A step's next state is the one its operation's lemma names. -/
theorem step_next_unique {s t u : State} (h : step s = .next t) (e : step s = .next u) : t = u :=
  Host.Outcome.next.inj (h.symm.trans e)

/-- Settles O26: the selected operation, and for the two checks the verdict, name the next state. -/
theorem stateTransitionTable : Obligations.StateTransitionTable := by
  intro s t ht
  refine ⟨fun hrst => ?_, fun hrst => ⟨fun hrest => ⟨fun hs => ?_, fun hs => ?_⟩,
    fun hq => ⟨fun hall => ?_, fun ⟨col, hcol, hbad⟩ => ?_⟩, fun hq => ⟨fun heq => ?_, fun hne => ?_⟩,
    fun hq => ?_⟩⟩
  · rw [step_next_unique ht (step_reset hrst)]
    rfl
  · rw [step_next_unique ht (step_load hrst hs (restingState_of_mem hrest))]
    exact Block.loaded_seq _
  · rw [step_next_unique ht (step_hold hrst hs (restingState_of_mem hrest))]
    rfl
  · rw [step_next_unique ht (step_parchk hrst hq)]
    exact Block.parchk_seq_of_ok ((parityCheck_ok_iff _).2 hall)
  · rw [step_next_unique ht (step_parchk hrst hq)]
    exact Block.parchk_seq_of_not_ok fun hok => hbad ((parityCheck_ok_iff _).1 hok col hcol)
  · rw [step_next_unique ht (step_cksum hrst hq)]
    rw [State.advance_block, State.setBlock_block, Block.cksum_seq,
      if_pos ((ckOk_iff_setBits _).2 heq)]
  · rw [step_next_unique ht (step_cksum hrst hq)]
    rw [State.advance_block, State.setBlock_block, Block.cksum_seq,
      if_neg (mt (ckOk_iff_setBits _).1 hne)]
  · rw [step_next_unique ht (step_extract hrst hq)]
    rfl

/-! ### Which operation writes which register (R47, R68) -/

@[simp] theorem Block.parchk_ckExpected (b : Block) : b.parchk.ckExpected = b.ckExpected := by
  rcases b.parchk_cases with ⟨-, e⟩ | ⟨col, -, -, e⟩ <;> rw [e]

@[simp] theorem Block.parchk_ckActual (b : Block) : b.parchk.ckActual = b.ckActual := by
  rcases b.parchk_cases with ⟨-, e⟩ | ⟨col, -, -, e⟩ <;> rw [e]

@[simp] theorem Block.parchk_reading (b : Block) : b.parchk.reading = b.reading := by
  rcases b.parchk_cases with ⟨-, e⟩ | ⟨col, -, -, e⟩ <;> rw [e]

@[simp] theorem Block.cksum_errCol (b : Block) : b.cksum.errCol = b.errCol := by
  rcases b.cksum_cases with ⟨-, e⟩ | ⟨-, -, e⟩ <;> rw [e]

@[simp] theorem Block.cksum_reading (b : Block) : b.cksum.reading = b.reading := by
  rcases b.cksum_cases with ⟨-, e⟩ | ⟨-, -, e⟩ <;> rw [e]

@[simp] theorem Block.extract_errCol (b : Block) : b.extract.errCol = b.errCol := rfl
@[simp] theorem Block.extract_ckExpected (b : Block) : b.extract.ckExpected = b.ckExpected := rfl
@[simp] theorem Block.extract_ckActual (b : Block) : b.extract.ckActual = b.ckActual := rfl

/-- Settles O31: the writers of a register are excused by their mnemonics, and every other operation keeps
it by its own frame lemma. -/
theorem registersAreWrittenByTheirOperations : Obligations.RegistersAreWrittenByTheirOperations := by
  intro i s t h
  rcases exec_cases i s with ⟨b, e, hop⟩ | ⟨v, e, -⟩
  · cases e.symm.trans h
    rw [State.setBlock_block]
    rcases hop with ⟨hm, -⟩ | ⟨hm, -⟩ | ⟨-, hb⟩ | ⟨hm, hb⟩ | ⟨hm, hb⟩ | ⟨hm, hb⟩ | ⟨hm, -⟩
    · simp [hm]
    · simp [hm]
    · simp [hb]
    · simp [hm, hb]
    · simp [hm, hb]
    · simp [hm, hb]
    · simp [hm]
  · cases e.symm.trans h
    exact ⟨fun _ _ => rfl, fun _ => rfl, fun _ => ⟨rfl, rfl⟩, fun _ => rfl, fun _ => rfl⟩

/-! ### The canonical form of the frame buffer (assumption 8) -/

/-- Settles O42: the frame buffer is kept, emptied, or the copy of a frame. -/
theorem frameBufferFormIsKept : Obligations.FrameBufferFormIsKept := by
  intro i s t hwf h
  rcases exec_cases i s with ⟨b, e, hop⟩ | ⟨v, e, -⟩
  · cases e.symm.trans h
    rw [State.setBlock_block]
    rcases hop with ⟨-, hb⟩ | ⟨-, f, hb⟩ | ⟨-, hb⟩ | ⟨-, hb⟩ | ⟨-, hb⟩ | ⟨-, hb⟩ | ⟨-, f, hb⟩ <;> rw [hb]
    · exact Block.atReset_wf
    · exact Block.loaded_wf f
    · exact hwf
    · rwa [Block.parchk_fb]
    · rwa [Block.cksum_fb]
    · exact hwf
    · rw [Block.wholeCall_fb]
      exact Memory.ofFrame_wf f
  · cases e.symm.trans h
    exact hwf

/-! ### What the invariant says, register by register (R192) -/

section
variable {b : Block}

/-- `ERR_COL` is written in `ParityFailed` only (R30). -/
theorem Block.Inv.errCol_eq_zero (h : b.Inv) (hq : b.seq ≠ .parityFailed) : b.errCol = 0#4 := by
  obtain ⟨-, hs⟩ := h
  cases e : b.seq <;> simp only [e] at hs
  case idle => rw [hs]; rfl
  case parityFailed => exact absurd e hq
  all_goals exact hs.1

theorem Block.Inv.firstBadColumn (h : b.Inv) (hq : b.seq = .parityFailed) :
    FirstBadColumn b.payload b.errCol.toNat := by
  obtain ⟨-, hs⟩ := h
  simp only [hq] at hs
  obtain ⟨-, -, -, -, hfail⟩ := hs
  exact (parityCheck_fail_iff _ _).1 hfail

/-- Before the checksum check, and after a parity failure, no count is written (R31, R32). -/
theorem Block.Inv.counts_eq_zero (h : b.Inv)
    (hq : b.seq ∈ [SeqState.idle, .start, .parityChecked, .parityFailed]) :
    b.ckExpected = 0#8 ∧ b.ckActual = 0#8 := by
  obtain ⟨-, hs⟩ := h
  cases e : b.seq <;> simp only [e] at hs
  case idle => rw [hs]; exact ⟨rfl, rfl⟩
  case start => obtain ⟨-, hexp, hact, -⟩ := hs; exact ⟨hexp, hact⟩
  case parityChecked => obtain ⟨-, hexp, hact, -⟩ := hs; exact ⟨hexp, hact⟩
  case parityFailed => obtain ⟨hexp, hact, -⟩ := hs; exact ⟨hexp, hact⟩
  all_goals simp [e] at hq

theorem ckActualW_eq_of_ckOk {P : Payload} (h : ckOk P = true) : ckActualW P = P 13 := by
  simpa [ckOk, ckExpectedW] using h

/-- The checksum check has passed in `ChecksumChecked` and `Decoded`. -/
theorem Block.Inv.ckOk_eq_true (h : b.Inv) (hq : b.seq ∈ [SeqState.checksumChecked, .decoded]) :
    ckOk b.payload = true := by
  obtain ⟨-, hs⟩ := h
  cases e : b.seq <;> simp only [e] at hs
  case checksumChecked => obtain ⟨-, -, -, -, -, hok⟩ := hs; exact hok
  case decoded => obtain ⟨-, -, -, -, -, hok⟩ := hs; exact hok
  all_goals simp [e] at hq

/-- From the checksum check on the two counts are what it compared (R31, R32). -/
theorem Block.Inv.counts_eq (h : b.Inv)
    (hq : b.seq ∈ [SeqState.checksumChecked, .decoded, .checksumFailed]) :
    b.ckExpected = b.payload 13 ∧ b.ckActual = ckActualW b.payload := by
  obtain ⟨-, hs⟩ := h
  cases e : b.seq <;> simp only [e] at hs
  case checksumChecked =>
    obtain ⟨-, hexp, hact, -, -, hok⟩ := hs
    exact ⟨hexp, hact.trans (ckActualW_eq_of_ckOk hok).symm⟩
  case decoded =>
    obtain ⟨-, hexp, hact, -, -, hok⟩ := hs
    exact ⟨hexp, hact.trans (ckActualW_eq_of_ckOk hok).symm⟩
  case checksumFailed =>
    obtain ⟨-, hexp, hact, -⟩ := hs
    exact ⟨hexp, hact⟩
  all_goals simp [e] at hq

theorem Block.Inv.counts_ne (h : b.Inv) (hq : b.seq = .checksumFailed) :
    b.ckActual ≠ b.ckExpected := by
  obtain ⟨-, hs⟩ := h
  simp only [hq] at hs
  obtain ⟨-, -, -, hne, -⟩ := hs
  exact hne.symm

/-- `CK_ACTUAL` is 0 or a count of 96 bits (R32). -/
theorem Block.Inv.ckActual_le (h : b.Inv) : b.ckActual.toNat ≤ 96 := by
  by_cases hq : b.seq ∈ [SeqState.checksumChecked, .decoded, .checksumFailed]
  · rw [(h.counts_eq hq).2, ckActualW_toNat]
    exact bitCount_le _
  · have hzero : b.seq ∈ [SeqState.idle, .start, .parityChecked, .parityFailed] := by
      revert hq
      cases b.seq <;> decide
    rw [(h.counts_eq_zero hzero).2]
    decide

/-- The reading registers are written in `Decoded` only (R33). -/
theorem Block.Inv.reading_eq_zero (h : b.Inv) (hq : b.seq ≠ .decoded) :
    b.reading = WeatherReading.zero := by
  obtain ⟨-, hs⟩ := h
  cases e : b.seq <;> simp only [e] at hs
  case idle => rw [hs]; rfl
  case start => obtain ⟨-, -, -, hr⟩ := hs; exact hr
  case parityChecked => obtain ⟨-, -, -, hr, -⟩ := hs; exact hr
  case checksumChecked => obtain ⟨-, -, -, hr, -⟩ := hs; exact hr
  case decoded => exact absurd e hq
  case parityFailed => obtain ⟨-, -, hr, -⟩ := hs; exact hr
  case checksumFailed => obtain ⟨-, -, -, -, hr, -⟩ := hs; exact hr

theorem Block.Inv.reading_eq (h : b.Inv) (hq : b.seq = .decoded) :
    b.reading = readingOf b.payload := by
  obtain ⟨-, hs⟩ := h
  simp only [hq] at hs
  obtain ⟨-, -, -, hreading, -⟩ := hs
  exact hreading

/-- The reading as a value exists in `Decoded` only (R34). -/
theorem Block.reading?_eq (b : Block) :
    b.reading? = if b.seq = .decoded then some b.reading else none := by
  cases hq : b.seq <;> simp [Block.reading?, hq]

end

/-- Settles O43: in `Decoded` the invariant gives the extractors' values, elsewhere the zeros of the last
`LOAD` or `RESET`. -/
theorem readingExistsOnlyWhenDecoded : Obligations.ReadingExistsOnlyWhenDecoded := by
  intro b h
  refine ⟨fun hq => ⟨?_, ?_⟩, fun hq => ⟨?_, h.reading_eq_zero hq⟩⟩
  · rw [Block.reading?_eq, if_pos hq]
  · rw [h.reading_eq hq]
    exact readingOf_isOf _
  · rw [Block.reading?_eq, if_neg hq]

/-- Settles O44: register by register, and the count in 8 bits is the exact one. -/
theorem diagnosticRegistersByState : Obligations.DiagnosticRegistersByState := by
  intro b h
  refine ⟨h.errCol_eq_zero, h.firstBadColumn, h.counts_eq_zero, fun hq => (h.counts_eq hq).1,
    fun hq => ?_, fun hq => ?_, h.counts_ne, h.ckActual_le⟩
  · have hok := h.ckOk_eq_true hq
    have hmem : b.seq ∈ [SeqState.checksumChecked, .decoded, .checksumFailed] := by
      revert hq
      cases b.seq <;> decide
    obtain ⟨hexp, hact⟩ := h.counts_eq hmem
    rw [hexp, hact, ckActualW_eq_of_ckOk hok]
  · rw [(h.counts_eq hq).2, ckActualW_toNat, setBits_eq_bitCount]

end Sys2Proof.Machine
end

section
/-! PROOFS. The family of 20_memory.md: what is read of a frame, when the port `frame_in` is read, and what
an extractor writes. -/

namespace Sys2Proof.Machine

/-! ### Raw byte 0 (R62, R107) -/

/-- With the eight lowest bits replaced, byte `k + 1` is the same byte for every `k`. -/
theorem Frame.payload_replace_sync (f : Frame) (b : Byte) :
    Frame.payload (f.extractLsb' 8 208 ++ b : BitVec (208 + 8)) = Frame.payload f := by
  funext k
  apply BitVec.eq_of_getLsbD_eq
  intro j hj
  have habove : ¬ 8 * (k + 1) + j < 8 := by omega
  have hback : 8 + (8 * (k + 1) + j - 8) = 8 * (k + 1) + j := by omega
  simp only [Frame.payload, Frame.byte_getLsbD, BitVec.getLsbD_append, habove, if_false,
    BitVec.getLsbD_extractLsb', hback]
  by_cases hin : 8 * (k + 1) + j < 216
  · have hin' : 8 * (k + 1) + j - 8 < 208 := by omega
    simp [hin']
  · simp [BitVec.getLsbD_of_ge f _ (Nat.le_of_not_lt hin)]

/-- Settles O21: `decode_raw` is a function of the payload, which begins at raw byte 1. -/
theorem syncByteIsNotRead : Obligations.SyncByteIsNotRead := fun frame b =>
  congrArg decodePayload (Frame.payload_replace_sync frame b)

/-! ### The port `frame_in` (R61) -/

@[simp] theorem State.advance_setPins (s : State) (p : Inputs) : (s.setPins p).advance = s.advance :=
  rfl

@[simp] theorem State.advance_setBlock_setPins (s : State) (p : Inputs) (b : Block) :
    ((s.setPins p).setBlock b).advance = (s.setBlock b).advance := rfl

/-- An edge that accepts no start has one answer for every frame on the port: its operation is not `LOAD`,
and the edge drops the inputs. -/
theorem step_setPins_of_not_accepting (s : State) {rst start : Bool}
    (h : rst = true ∨ start = false ∨ busyOf s.block.seq = true) :
    ∃ t, ∀ f, step (s.setPins ⟨rst, start, f⟩) = .next t := by
  cases rst with
  | true =>
    refine ⟨(s.setBlock Block.atReset).advance, fun f => ?_⟩
    rw [step_reset (by simp)]
    simp
  | false =>
    cases hq : s.block.seq with
    | start =>
      refine ⟨(s.setBlock s.block.parchk).advance, fun f => ?_⟩
      rw [step_parchk (by simp) (by simp [hq])]
      simp
    | parityChecked =>
      refine ⟨(s.setBlock s.block.cksum).advance, fun f => ?_⟩
      rw [step_cksum (by simp) (by simp [hq])]
      simp
    | checksumChecked =>
      refine ⟨(s.setBlock s.block.extract).advance, fun f => ?_⟩
      rw [step_extract (by simp) (by simp [hq])]
      simp
    | _ =>
      have hstart : start = false := by simpa [hq, busyOf] using h
      have hrest : restingState s.block.seq = true := by rw [hq]; rfl
      refine ⟨s.advance, fun f => ?_⟩
      rw [step_hold (by simp) (by simp [hstart]) (by simp [hrest])]
      simp

/-- Settles O30: the step with `frame_in` replaced and the step without have the one answer. -/
theorem frameInIsReadByLoadOnly : Obligations.FrameInIsReadByLoadOnly := by
  intro s p f h
  obtain ⟨t, hstep⟩ := step_setPins_of_not_accepting s h
  exact (hstep f).trans (hstep p.frameIn).symm

/-! ### The extractors (R68, R101) -/

/-- Settles O10: each extractor's law is a look at its output, which replaces `probe` and nothing else. -/
theorem extractorsShowTheirOutput : Obligations.ExtractorsShowTheirOutput := fun s =>
  ⟨exec_xsid s, exec_xwdir s, exec_xgust s, exec_xbatt s, exec_xtemp s, exec_xhum s, exec_xwavg s,
    exec_xrain s⟩

end Sys2Proof.Machine
end

section
/-! PROOFS. The family of 30_encoding.md: the words of the instructions and their decoder, the operation map
held against the table, `DECODE` as the sequence it stands for, and the frames that decode to a reading. -/

namespace Sys2Proof

/-! ### The operation map, row by row (R98) -/

theorem decodeWord_reset (start : Bool) (c : BitVec 3) (bs : List Byte) :
    decodeWord true start c bs = .ok (.reset start c, bs) := rfl

theorem decodeWord_loadIdle (f : Frame) (rest : List Byte) :
    decodeWord false true 0#3 (Frame.bytes f ++ rest) = .ok (.loadIdle f, rest) :=
  withFrame_bytes .loadIdle f rest

theorem decodeWord_loadTerminal {q : SeqState} (h : q.isTerminal = true) (f : Frame)
    (rest : List Byte) :
    decodeWord false true q.code (Frame.bytes f ++ rest) = .ok (.loadTerminal q f, rest) := by
  cases q with
  | decoded => exact withFrame_bytes (.loadTerminal .decoded) f rest
  | parityFailed => exact withFrame_bytes (.loadTerminal .parityFailed) f rest
  | checksumFailed => exact withFrame_bytes (.loadTerminal .checksumFailed) f rest
  | _ => simp [SeqState.isTerminal] at h

theorem decodeWord_holdIdle (bs : List Byte) : decodeWord false false 0#3 bs = .ok (.holdIdle, bs) :=
  rfl

theorem decodeWord_holdTerminal {q : SeqState} (h : q.isTerminal = true) (bs : List Byte) :
    decodeWord false false q.code bs = .ok (.holdTerminal q, bs) := by
  cases q with
  | decoded => rfl
  | parityFailed => rfl
  | checksumFailed => rfl
  | _ => simp [SeqState.isTerminal] at h

theorem decodeWord_parchk (start : Bool) (bs : List Byte) :
    decodeWord false start 1#3 bs = .ok (.parchk start, bs) := rfl

theorem decodeWord_cksum (start : Bool) (bs : List Byte) :
    decodeWord false start 2#3 bs = .ok (.cksum start, bs) := rfl

theorem decodeWord_extract (start : Bool) (bs : List Byte) :
    decodeWord false start 3#3 bs = .ok (.extract start, bs) := rfl

/-- The reserved code (R108). -/
theorem decodeWord_reserved (start : Bool) (bs : List Byte) :
    decodeWord false start 7#3 bs = .error .reservedState := rfl

/-! ### Decode and encode (R98, R99) -/

/-- The bytes of a frame that begins with the synchronisation byte are the word of `DECODE`. -/
theorem decodeFrame27_bytes {f : Frame} (h : Frame.byte f 0 = Config.syncByte) (rest : List Byte) :
    decodeFrame27 (Frame.bytes f ++ rest) = .ok (.decode f, rest) := by
  simp [decodeFrame27, h]

/-- The first byte of `DECODE`'s frame is what its well-formedness asks for. -/
theorem Instr.wellFormed_decode_iff (f : Frame) :
    (Instr.decode f).WellFormed ↔ Frame.byte f 0 = Config.syncByte :=
  beq_iff_eq

/-- The decoder of a step reads a selecting word by the operation map. -/
theorem decodeAs_step_selByte (rst start : Bool) (c : BitVec 3) (tl rest : List Byte) :
    decodeAs .step ((selByte rst start c :: tl) ++ rest) = decodeWord rst start c (tl ++ rest) :=
  decodeBytes_selByte ..

/-- Settles O34: an instruction with a word is a row of the operation map or `DECODE`. -/
theorem decodeOfEncode : Obligations.DecodeOfEncode := by
  intro i fmt w rest hwf henc
  cases i <;> cases henc
  case decode f => exact decodeFrame27_bytes ((Instr.wellFormed_decode_iff f).1 hwf) rest
  all_goals rw [decodeAs_step_selByte]
  case reset start c => exact decodeWord_reset start c rest
  case loadIdle f => exact decodeWord_loadIdle f rest
  case loadTerminal q f => exact decodeWord_loadTerminal hwf f rest
  case holdIdle => exact decodeWord_holdIdle rest
  case holdTerminal q => exact decodeWord_holdTerminal hwf rest
  case parchk start => exact decodeWord_parchk start rest
  case cksum start => exact decodeWord_cksum start rest
  case extract start => exact decodeWord_extract start rest

/-- What the decoder of a step accepts begins with a selecting word's byte. -/
theorem decodeBytes_ok {bs rest : List Byte} {i : Instr} (h : decodeBytes bs = .ok (i, rest)) :
    ∃ rst start c tl, bs = selByte rst start c :: tl ∧ decodeWord rst start c tl = .ok (i, rest) := by
  cases bs with
  | nil => cases h
  | cons b tl =>
    by_cases hb : b.extractLsb' 5 3 = 0#3
    · refine ⟨_, _, _, tl, by rw [← selByte_of_upper hb], ?_⟩
      simpa only [decodeBytes, hb, if_true] using h
    · simp [decodeBytes, hb] at h

/-- What the decoder of `DECODE`'s pattern accepts. -/
theorem decodeFrame27_ok {bs rest : List Byte} {i : Instr} (h : decodeFrame27 bs = .ok (i, rest)) :
    ∃ f, Frame.byte f 0 = Config.syncByte ∧ i = .decode f ∧ bs = Frame.bytes f ++ rest := by
  unfold decodeFrame27 at h
  split at h
  · next f tl htake =>
    split at h
    · next hsync =>
      cases h
      exact ⟨f, hsync, rfl, takeFrame_ok htake⟩
    · cases h
  · cases h

/-- A selecting word that decodes is the word of its well-formed instruction. -/
theorem encode_of_decodeWord {rst start : Bool} {c : BitVec 3} {tl rest : List Byte} {i : Instr}
    (h : decodeWord rst start c tl = .ok (i, rest)) :
    i.WellFormed ∧ ∃ w, encode i = some (.step, selByte rst start c :: w) ∧ tl = w ++ rest := by
  rcases decodeWord_ok h with ⟨rfl, rfl, rfl⟩ | ⟨rfl, hrow⟩
  · exact ⟨rfl, [], rfl, rfl⟩
  · rcases hrow with ⟨rfl, rfl, f, rfl, rfl⟩ | ⟨rfl, rfl, rfl, rfl⟩ | ⟨rfl, rfl, rfl⟩ |
      ⟨rfl, rfl, rfl⟩ | ⟨rfl, rfl, rfl⟩ | ⟨q, hq, rfl, hterm⟩
    · exact ⟨rfl, Frame.bytes f, rfl, rfl⟩
    · exact ⟨rfl, [], rfl, rfl⟩
    · exact ⟨rfl, [], rfl, rfl⟩
    · exact ⟨rfl, [], rfl, rfl⟩
    · exact ⟨rfl, [], rfl, rfl⟩
    · rcases hterm with ⟨rfl, f, rfl, rfl⟩ | ⟨rfl, rfl, rfl⟩
      · exact ⟨hq, Frame.bytes f, rfl, rfl⟩
      · exact ⟨hq, [], rfl, rfl⟩

/-- Settles O35: a step's bytes are a selecting word and its row's operand, `DECODE`'s are its frame. -/
theorem encodeOfDecode : Obligations.EncodeOfDecode := by
  intro fmt bs rest i h
  cases fmt with
  | step =>
    obtain ⟨rst, start, c, tl, rfl, hword⟩ := decodeBytes_ok h
    obtain ⟨hwf, w, henc, rfl⟩ := encode_of_decodeWord hword
    exact ⟨hwf, _, henc, rfl⟩
  | frame27 =>
    obtain ⟨f, hsync, rfl, rfl⟩ := decodeFrame27_ok h
    exact ⟨(Instr.wellFormed_decode_iff f).2 hsync, Frame.bytes f, rfl, rfl⟩

/-! ### The operation map against the table (R98, R180) -/

/-- The operation that a state selects with `rst` low (R180). -/
def SeqState.operation (q : SeqState) (start : Bool) : String :=
  match q with
  | .start => "PARCHK"
  | .parityChecked => "CKSUM"
  | .checksumChecked => "EXTRACT"
  | .idle | .decoded | .parityFailed | .checksumFailed => if start then "LOAD" else "HOLD"

/-- The rows of the table give a state's operation. -/
theorem rowsOf_of_code (q : SeqState) : ∀ w : BitVec 5, w.getLsbD 4 = false →
    w.extractLsb' 0 3 = q.code → rowsOf w = [q.operation (w.getLsbD 3)] := by
  cases q <;> decide

theorem rowsOf_of_rst : ∀ w : BitVec 5, w.getLsbD 4 = true → rowsOf w = ["RESET"] := by decide

/-- The decoder gives a state's operation. -/
theorem decodeWord_of_code (q : SeqState) (start : Bool) (f : Frame) :
    ∃ i rest, decodeWord false start q.code (Frame.bytes f) = .ok (i, rest) ∧
      i.mnemonic = q.operation start := by
  cases q with
  | start => exact ⟨_, _, decodeWord_parchk start _, rfl⟩
  | parityChecked => exact ⟨_, _, decodeWord_cksum start _, rfl⟩
  | checksumChecked => exact ⟨_, _, decodeWord_extract start _, rfl⟩
  | idle =>
    cases start with
    | true => exact ⟨_, _, withFrame_bytes_nil _ f, rfl⟩
    | false => exact ⟨_, _, decodeWord_holdIdle _, rfl⟩
  | _ =>
    cases start with
    | true => exact ⟨_, _, withFrame_bytes_nil _ f, rfl⟩
    | false => exact ⟨_, _, decodeWord_holdTerminal rfl _, rfl⟩

/-- Every code but the reserved one has a state (R95). -/
theorem SeqState.exists_of_code_ne {c : BitVec 3} (h : c ≠ 7#3) : ∃ q : SeqState, c = q.code := by
  have hsome : ∀ c : BitVec 3, c ≠ 7#3 → (SeqState.ofCode? c).isSome = true := by decide
  obtain ⟨q, hq⟩ := Option.isSome_iff_exists.1 (hsome c h)
  exact ⟨q, SeqState.ofCode?_some hq⟩

/-- The byte of a selecting word, by its fields. -/
theorem setWidth_eq_selByte : ∀ w : BitVec 5,
    w.setWidth 8 = selByte (w.getLsbD 4) (w.getLsbD 3) (w.extractLsb' 0 3) := by
  decide

/-- Settles O36: with `rst` high the row is `RESET`; with `rst` low the code's state names the row and the
decoder's operation alike. -/
theorem operationMapMatchesTheTable : Obligations.OperationMapMatchesTheTable := by
  intro w frame
  rw [setWidth_eq_selByte, decodeBytes_selByte]
  refine ⟨fun hsel => ?_, fun hrst hcode => by rw [hrst, hcode, decodeWord_reserved]⟩
  cases hrst : w.getLsbD 4 with
  | true => exact ⟨_, _, decodeWord_reset _ _ _, rowsOf_of_rst w hrst⟩
  | false =>
    obtain ⟨q, hq⟩ := SeqState.exists_of_code_ne (hsel.resolve_left (Bool.eq_false_iff.1 hrst))
    obtain ⟨i, rest, hdec, hmnem⟩ := decodeWord_of_code q (w.getLsbD 3) frame
    exact ⟨i, rest, by rw [hq, hdec], by rw [rowsOf_of_code q w hrst hq, hmnem]⟩

end Sys2Proof

namespace Sys2Proof.Machine

/-! ### Which payloads decode to a reading (R194) -/

/-- The two bytes of a column that holds are complements of each other (R92). -/
theorem columnHolds_iff (P : Payload) (col : Nat) : ColumnHolds P col ↔ P col = ~~~P (col + 13) := by
  have hmask : 0xFF#8 = ~~~0#8 := rfl
  rw [ColumnHolds, hmask, ← BitVec.not_eq_comm, BitVec.not_xor_right, BitVec.xor_eq_zero_iff]

/-- Parity makes the first half the second with every bit flipped (R92). -/
theorem parityCheck_ok_iff_complement (P : Payload) :
    parityCheck P = .ok ↔ ∀ k, k < 13 → P k = ~~~P (k + 13) := by
  simp only [parityCheck_ok_iff, ← columnHolds_iff]

theorem decodePayload_eq_decoded_iff (P : Payload) (r : WeatherReading) :
    decodePayload P = .decoded r ↔ parityCheck P = .ok ∧ ckOk P = true ∧ readingOf P = r := by
  rcases parityCheck_cases P with hpar | ⟨col, -, hpar⟩
  · cases hk : ckOk P with
    | true => simp [decodePayload_of_checks_ok hpar hk, hpar]
    | false => simp [decodePayload_of_checksum_mismatch hpar hk]
  · simp [decodePayload_of_parity_fail hpar, hpar]

/-- Settles O49: a reading needs the declared byte to be the count, and the count is at most 96. -/
theorem declaredAbove96NeverPasses : Obligations.DeclaredAbove96NeverPasses := by
  intro P r habove hdec
  obtain ⟨-, hk, -⟩ := (decodePayload_eq_decoded_iff P r).1 hdec
  have hcount := (ckOk_iff P).1 hk
  have hle := bitCount_le P
  omega

/-! ### The bytes of an encoded frame (R110) -/

@[simp] theorem encodedHalf_length (d : BitVec 96) : (encodedHalf d).length = 13 := by
  simp [encodedHalf]

theorem encodedHalf_getD_succ (d : BitVec 96) {j : Nat} (hj : j < 12) :
    (encodedHalf d).getD (j + 1) 0#8 = dataByte d j := by
  simp [encodedHalf, List.getD, hj]

theorem encodeFrame_sync (d : BitVec 96) : hostMayCall (encodeFrame d) = true := by
  rw [hostMayCall, encodeFrame, Frame.byte_ofBytes _ (by decide), List.getD_cons_zero,
    beq_self_eq_true]

/-- The first half is the second with every bit flipped. -/
theorem encodeFrame_payload_low (d : BitVec 96) {k : Nat} (hk : k < 13) :
    Frame.payload (encodeFrame d) k = ~~~((encodedHalf d).getD k 0#8) := by
  have hhalf : k < (encodedHalf d).length := by rwa [encodedHalf_length]
  have hflip : k < ((encodedHalf d).map (fun b => ~~~b)).length := by rwa [List.length_map]
  rw [Frame.payload, encodeFrame, Frame.byte_ofBytes _ (show k + 1 < 27 by omega),
    List.getD_cons_succ, List.getD_append _ _ _ _ hflip, List.getD_eq_getElem _ _ hflip,
    List.getElem_map, List.getD_eq_getElem _ _ hhalf]

theorem encodeFrame_payload_high (d : BitVec 96) {k : Nat} (hk : k < 13) :
    Frame.payload (encodeFrame d) (k + 13) = (encodedHalf d).getD k 0#8 := by
  have hlen : ((encodedHalf d).map (fun b => ~~~b)).length = 13 := by simp
  rw [Frame.payload, encodeFrame, Frame.byte_ofBytes _ (show k + 13 + 1 < 27 by omega),
    List.getD_cons_succ, List.getD_append_right _ _ _ _ (by omega), hlen, Nat.add_sub_cancel]

theorem encodeFrame_payload_data (d : BitVec 96) {j : Nat} (hj : j < 12) :
    Frame.payload (encodeFrame d) (14 + j) = dataByte d j := by
  rw [Nat.add_comm, ← Nat.add_assoc j 1 13, encodeFrame_payload_high d (by omega),
    encodedHalf_getD_succ d hj]

/-- The declared byte is the number of 1 bits of the data. -/
theorem encodeFrame_payload_count (d : BitVec 96) :
    Frame.payload (encodeFrame d) 13 = BitVec.ofNat 8 (dataCount d) :=
  encodeFrame_payload_high d (k := 0) (by decide)

/-! ### An encoded frame passes both checks (R110) -/

theorem encodeFrame_parity (d : BitVec 96) : parityCheck (Frame.payload (encodeFrame d)) = .ok := by
  rw [parityCheck_ok_iff_complement]
  intro k hk
  rw [encodeFrame_payload_low d hk, encodeFrame_payload_high d hk]

theorem encodeFrame_bitCount (d : BitVec 96) :
    bitCount (Frame.payload (encodeFrame d)) = dataCount d :=
  congrArg List.sum (List.map_congr_left fun _ hj =>
    congrArg popcnt8 (encodeFrame_payload_data d (List.mem_range.1 hj)))

theorem encodeFrame_ckOk (d : BitVec 96) : ckOk (Frame.payload (encodeFrame d)) = true := by
  rw [ckOk, beq_iff_eq, ckActualW, encodeFrame_bitCount]
  exact (encodeFrame_payload_count d).symm

theorem encodeFrame_decodes (d : BitVec 96) :
    decodeRaw (encodeFrame d) = .decoded (readingOf (Frame.payload (encodeFrame d))) :=
  decodePayload_of_checks_ok (encodeFrame_parity d) (encodeFrame_ckOk d)

/-- Settles O50: both checks hold of an encoded frame, so its outcome is the reading of its payload. -/
theorem encodedFrameDecodes : Obligations.EncodedFrameDecodes := fun d =>
  ⟨_, encodeFrame_decodes d, readingOf_isOf _, encodeFrame_sync d,
    fun _ hj => encodeFrame_payload_data d hj⟩

/-! ### An accepted frame is determined by its data bytes (R110) -/

/-- Two payloads that decode to readings and agree in the twelve data bytes agree in all 26. -/
theorem payload_eq_of_decoded {P Q : Payload} {p q : WeatherReading}
    (hP : decodePayload P = .decoded p) (hQ : decodePayload Q = .decoded q)
    (hdata : ∀ j, j < 12 → P (14 + j) = Q (14 + j)) : ∀ k, k < 26 → P k = Q k := by
  obtain ⟨hparP, hckP, -⟩ := (decodePayload_eq_decoded_iff P p).1 hP
  obtain ⟨hparQ, hckQ, -⟩ := (decodePayload_eq_decoded_iff Q q).1 hQ
  have hupper : ∀ k, 14 ≤ k → k < 26 → P k = Q k := fun k hlo hhi => by
    simpa [Nat.add_sub_cancel' hlo] using hdata (k - 14) (by omega)
  have hcount : P 13 = Q 13 := BitVec.eq_of_toNat_eq <| by
    rw [(ckOk_iff P).1 hckP, (ckOk_iff Q).1 hckQ, bitCount_congr hupper]
  have hhalf : ∀ k, 13 ≤ k → k < 26 → P k = Q k := fun k hlo hhi =>
    (Nat.eq_or_lt_of_le hlo).elim (fun e => e ▸ hcount) (fun h => hupper k h hhi)
  intro k hk
  by_cases hlow : k < 13
  · rw [(parityCheck_ok_iff_complement P).1 hparP k hlow,
      (parityCheck_ok_iff_complement Q).1 hparQ k hlow, hhalf (k + 13) (by omega) (by omega)]
  · exact hhalf k (Nat.le_of_not_lt hlow) hk

/-- Two frames with equal raw byte 0 and equal payloads are equal (R63). -/
theorem Frame.ext_payload {f g : Frame} (hsync : Frame.byte f 0 = Frame.byte g 0)
    (hpay : ∀ k, k < 26 → Frame.payload f k = Frame.payload g k) : f = g :=
  Frame.ext_bytes fun i hi => by
    cases i with
    | zero => exact hsync
    | succ k => exact hpay k (Nat.lt_of_succ_lt_succ hi)

/-- The data block of a frame: `P[14]` to `P[25]` (R110). -/
def Frame.dataBlock (f : Frame) : BitVec 96 := f.extractLsb' 120 96

theorem dataByte_dataBlock (f : Frame) {j : Nat} (hj : j < 12) :
    dataByte (Frame.dataBlock f) j = Frame.payload f (14 + j) := by
  apply BitVec.eq_of_getLsbD_eq
  intro b hb
  have hin : 8 * j + b < 96 := by omega
  have hat : 120 + (8 * j + b) = 8 * (14 + j + 1) + b := by omega
  simp [dataByte, Frame.dataBlock, Frame.payload, Frame.byte, hb, hin, hat]

/-- Two blocks whose twelve bytes agree are equal. -/
theorem dataByte_ext {d e : BitVec 96} (h : ∀ j, j < 12 → dataByte d j = dataByte e j) : d = e := by
  apply BitVec.eq_of_getLsbD_eq
  intro n hn
  have hmod : n % 8 < 8 := Nat.mod_lt n (by decide)
  have hbit := congrArg (BitVec.getLsbD · (n % 8)) (h (n / 8) (by omega))
  simpa [dataByte, hmod, Nat.div_add_mod] using hbit

theorem dataBlock_encodeFrame (d : BitVec 96) : Frame.dataBlock (encodeFrame d) = d :=
  dataByte_ext fun _ hj => by rw [dataByte_dataBlock _ hj, encodeFrame_payload_data d hj]

/-- An accepted frame is the encoded frame of its own data bytes. -/
theorem encodeFrame_dataBlock {f : Frame} {r : WeatherReading} (hsync : hostMayCall f = true)
    (hdec : decodeRaw f = .decoded r) : f = encodeFrame (Frame.dataBlock f) := by
  have hbyte := (beq_iff_eq.1 hsync).trans (beq_iff_eq.1 (encodeFrame_sync (Frame.dataBlock f))).symm
  refine Frame.ext_payload hbyte (payload_eq_of_decoded hdec (encodeFrame_decodes _) fun j hj => ?_)
  rw [encodeFrame_payload_data _ hj, dataByte_dataBlock f hj]

/-- Settles O51: the block of an accepted frame is its data bytes, and an encoded frame gives its block
back. -/
theorem acceptedFramesAreEncodedFrames : Obligations.AcceptedFramesAreEncodedFrames := by
  refine ⟨fun d => ⟨encodeFrame_sync d, _, encodeFrame_decodes d⟩, fun frame r hsync hdec => ?_⟩
  refine ⟨Frame.dataBlock frame, encodeFrame_dataBlock hsync hdec, fun d hd => ?_⟩
  rw [hd, dataBlock_encodeFrame]

/-! ### `DECODE` (R103) -/

theorem Block.wholeCall_of_parityFailed {f : Frame} (h : (Block.loaded f).parchk.seq = .parityFailed) :
    Block.wholeCall f = (Block.loaded f).parchk := by
  rw [Block.wholeCall_eq, h, if_neg (by decide)]

theorem Block.wholeCall_of_checksumFailed {f : Frame}
    (hp : (Block.loaded f).parchk.seq = .parityChecked)
    (hk : (Block.loaded f).parchk.cksum.seq = .checksumFailed) :
    Block.wholeCall f = (Block.loaded f).parchk.cksum := by
  rw [Block.wholeCall_eq, if_pos hp, hk, if_neg (by decide)]

theorem Block.wholeCall_of_checksumChecked {f : Frame}
    (hp : (Block.loaded f).parchk.seq = .parityChecked)
    (hk : (Block.loaded f).parchk.cksum.seq = .checksumChecked) :
    Block.wholeCall f = (Block.loaded f).parchk.cksum.extract := by
  rw [Block.wholeCall_eq, if_pos hp, if_pos hk]

/-- `PARCHK` leaves one of two states. -/
theorem Block.parchk_seq_cases (b : Block) :
    b.parchk.seq = .parityFailed ∨ b.parchk.seq = .parityChecked := by
  rcases b.parchk_cases with ⟨-, e⟩ | ⟨col, -, -, e⟩
  · exact .inr (by rw [e])
  · exact .inl (by rw [e])

/-- `CKSUM` leaves one of two states. -/
theorem Block.cksum_seq_cases (b : Block) :
    b.cksum.seq = .checksumFailed ∨ b.cksum.seq = .checksumChecked := by
  rcases b.cksum_cases with ⟨-, e⟩ | ⟨-, -, e⟩
  · exact .inr (by rw [e])
  · exact .inl (by rw [e])

/-- Settles O15: the whole call stops where a check fails, and the machine's fields around the block are
those of the start in each case. -/
theorem decodeIsItsExpansion : Obligations.DecodeIsItsExpansion := by
  intro frame start s
  refine ⟨s.setBlock (Block.loaded frame), s.setBlock (Block.loaded frame).parchk,
    exec_loadIdle s frame, by simp, ?_⟩
  rw [exec_decode]
  rcases (Block.loaded frame).parchk_seq_cases with hp | hp
  · exact .inl ⟨hp, by rw [Block.wholeCall_of_parityFailed hp]⟩
  · refine .inr ⟨hp, s.setBlock (Block.loaded frame).parchk.cksum, by simp, ?_⟩
    rcases (Block.loaded frame).parchk.cksum_seq_cases with hk | hk
    · exact .inl ⟨hk, by rw [Block.wholeCall_of_checksumFailed hp hk]⟩
    · exact .inr ⟨hk, s.setBlock (Block.loaded frame).parchk.cksum.extract, by simp, rfl,
        by rw [Block.wholeCall_of_checksumChecked hp hk]⟩

/-- The outcome a whole call leaves to read is `decode_raw` of its frame (R195). -/
theorem Block.wholeCall_outcome (f : Frame) : (Block.wholeCall f).outcome? = some (decodeRaw f) := by
  rcases Block.wholeCall_cases f with ⟨col, -, hpar, e⟩ | ⟨hpar, hk, -, e⟩ | ⟨hpar, hk, e⟩ <;>
    rw [e, decodeRaw]
  · rw [decodePayload_of_parity_fail hpar]
    rfl
  · rw [decodePayload_of_checksum_mismatch hpar hk]
    rfl
  · rw [decodePayload_of_checks_ok hpar hk]
    rfl

/-- Settles O16: the block of a whole call holds the outcome, so its ports show it, and its buffer is the
copy of the frame. -/
theorem decodeShowsDecodeRaw : Obligations.DecodeShowsDecodeRaw := fun frame s =>
  have hout := Block.wholeCall_outcome frame
  ⟨_, exec_decode s frame, hout, Block.shows_of_outcome hout,
    fun a => by rw [State.setBlock_block, Block.wholeCall_fb, Memory.ofFrame_read, Frame.byte],
    rfl, rfl, rfl⟩

/-! ### The primitives, sample words, and the codes of `STATE` -/

/-- Settles O11: each primitive's law is a look at its value, which replaces `probe` and nothing else. -/
theorem primitivesShowTheirValue : Obligations.PrimitivesShowTheirValue := fun s k d0 d1 d2 v =>
  ⟨exec_byte s k, exec_lonib s k, exec_hinib s k, exec_bit7 s k, exec_bcd3 s d0 d1 d2,
    exec_popcnt8 s v⟩

/-- A step's word with nothing after it decodes to its instruction. -/
theorem decodeBytes_of_encode {i : Instr} {w : List Byte} (hwf : i.WellFormed)
    (henc : encode i = some (.step, w)) : decodeBytes w = .ok (i, []) := by
  have h := decodeOfEncode i .step w [] hwf henc
  rwa [List.append_nil] at h

/-- Settles O37: the word of the reserved code selects nothing, and the others are what the encoder gives,
eight for a step and the last for `DECODE`. -/
theorem sampleWordsDecode : Obligations.SampleWordsDecode :=
  ⟨decodeBytes_of_encode rfl rfl, decodeBytes_of_encode rfl rfl, decodeBytes_of_encode rfl rfl,
    decodeBytes_of_encode rfl rfl, decodeBytes_of_encode rfl rfl, decodeBytes_of_encode rfl rfl,
    decodeWord_reserved false [], decodeBytes_of_encode rfl rfl, decodeBytes_of_encode rfl rfl,
    decodeOfEncode (.decode 0xD4#216) .frame27 (0xD4#8 :: List.replicate 26 0#8) [] rfl rfl⟩

/-- Bit 2 of the code is `done` (R95). -/
theorem doneOf_eq_code_bit (q : SeqState) : doneOf q = q.code.getLsbD 2 := by
  cases q <;> rfl

/-- `busy` is bit 2 clear and the code nonzero (R95). -/
theorem busyOf_eq_code_bits (q : SeqState) : busyOf q = (!q.code.getLsbD 2 && q.code != 0#3) := by
  cases q <;> rfl

/-- Settles O38: the codes by the table, read back by `ofCode?`, and the flags by their bits. -/
theorem stateCodes : Obligations.StateCodes :=
  ⟨rfl, fun q => ⟨SeqState.ofCode?_code q, doneOf_eq_code_bit q, busyOf_eq_code_bits q⟩, rfl⟩

end Sys2Proof.Machine
end

section
/-! PROOFS. The family of 40_parity_checker.md: parity sees a payload only through its thirteen column
values, and a flipped frame bit changes one of them and one byte. -/

namespace Sys2Proof.Machine

/-! ### What parity sees (R121) -/

/-- The parity check reads nothing but the exclusive or of the two bytes of each column (R121). -/
theorem parityCheck_congr_columns {P Q : Payload}
    (h : ∀ col, col < 13 → P col ^^^ P (col + 13) = Q col ^^^ Q (col + 13)) :
    parityCheck P = parityCheck Q := by
  have hbad : (List.range Config.half).find? (badColumn P) =
      (List.range Config.half).find? (badColumn Q) :=
    List.find?_congr fun col hmem => congrArg (· != Config.parMask) (h col (List.mem_range.1 hmem))
  rw [parityCheck, hbad, parityCheck]

/-- Settles O45: the value of a column is symmetric in its two bytes. -/
theorem parityIsSymmetric : Obligations.ParityIsSymmetric := fun P =>
  parityCheck_congr_columns fun col hc => by
    rw [if_pos hc, if_neg (by omega), Nat.add_sub_cancel, BitVec.xor_comm]

/-! ### A frame with one bit flipped -/

theorem Frame.getLsbD_flip (f : Frame) {n : Nat} (hn : n < 216) (i : Nat) :
    (f ^^^ 1#216 <<< n).getLsbD i = (f.getLsbD i ^^ decide (i = n)) := by
  rw [BitVec.getLsbD_xor, ← BitVec.twoPow_eq, BitVec.getLsbD_twoPow, decide_eq_true hn, Bool.true_and,
    decide_eq_decide.2 (eq_comm (a := n))]

/-- Bit `n` of the frame is bit `n % 8` of payload byte `n / 8 - 1`; no other payload byte changes. -/
theorem Frame.payload_flip (f : Frame) {n : Nat} (hn : n < 216) (k : Nat) :
    Frame.payload (f ^^^ 1#216 <<< n) k =
      Frame.payload f k ^^^ if k + 1 = n / 8 then BitVec.twoPow 8 (n % 8) else 0#8 := by
  apply BitVec.eq_of_getLsbD_eq
  intro b hb
  have hat : 8 * (k + 1) + b = n ↔ k + 1 = n / 8 ∧ n % 8 = b := by omega
  simp only [Frame.payload, BitVec.getLsbD_xor, Frame.byte_getLsbD, Frame.getLsbD_flip f hn, hat]
  by_cases hk : k + 1 = n / 8
  · simp [hk, hb, eq_comm (a := b)]
  · simp [hk]

theorem Frame.payload_flip_of_ne (f : Frame) {n k : Nat} (hn : n < 216) (hk : k + 1 ≠ n / 8) :
    Frame.payload (f ^^^ 1#216 <<< n) k = Frame.payload f k := by
  rw [Frame.payload_flip f hn, if_neg hk, BitVec.xor_zero]

/-- One bit flipped changes the byte. -/
theorem xor_twoPow_ne (b : Byte) (n : Nat) : b ^^^ BitVec.twoPow 8 (n % 8) ≠ b := by
  intro h
  have hbit := congrArg (BitVec.getLsbD · (n % 8)) h
  simp [Nat.mod_lt] at hbit

/-! ### What a flip does to parity (R124) -/

/-- A flip changes the value of one column, by the flipped bit. -/
theorem Frame.column_flip (f : Frame) {n col : Nat} (h8 : 8 ≤ n) (hn : n < 216) (hc : col < 13) :
    Frame.payload (f ^^^ 1#216 <<< n) col ^^^ Frame.payload (f ^^^ 1#216 <<< n) (col + 13) =
      Frame.payload f col ^^^ Frame.payload f (col + 13) ^^^
        if col = (n / 8 - 1) % 13 then BitVec.twoPow 8 (n % 8) else 0#8 := by
  by_cases hlow : col + 1 = n / 8
  · have hcol : col = (n / 8 - 1) % 13 := by omega
    rw [Frame.payload_flip_of_ne f hn (k := col + 13) (by omega), Frame.payload_flip f hn, if_pos hlow,
      if_pos hcol, BitVec.xor_assoc, BitVec.xor_assoc, BitVec.xor_comm (BitVec.twoPow _ _)]
  · have hhigh : col + 13 + 1 = n / 8 ↔ col = (n / 8 - 1) % 13 := by omega
    simp only [Frame.payload_flip_of_ne f hn hlow, Frame.payload_flip f hn (col + 13), hhigh,
      BitVec.xor_assoc]

/-- Settles O46: the columns before that of the flipped bit still hold, and that one does not. -/
theorem singleBitFlipFailsParity : Obligations.SingleBitFlipFailsParity := by
  intro f n h8 hn hok
  rw [parityCheck_ok_iff] at hok
  have hc : (n / 8 - 1) % 13 < 13 := Nat.mod_lt _ (by decide)
  refine (parityCheck_fail_iff _ _).2 ⟨hc, ?_, fun d hd => ?_⟩
  · rw [Frame.column_flip f h8 hn hc, hok _ hc, if_pos rfl]
    exact xor_twoPow_ne _ n
  · have hd13 := hd.trans hc
    rw [Frame.column_flip f h8 hn hd13, hok d hd13, if_neg hd.ne, BitVec.xor_zero]

/-- The two changes of a mirrored flip cancel in their column (R124 law 4). -/
theorem parityCheck_mirrored_flip (f : Frame) {n : Nat} (h8 : 8 ≤ n) (hn : n < 112) :
    parityCheck (Frame.payload (f ^^^ 1#216 <<< n ^^^ 1#216 <<< (n + 104))) =
      parityCheck (Frame.payload f) := by
  have hcol : ((n + 104) / 8 - 1) % 13 = (n / 8 - 1) % 13 := by omega
  have hbit : (n + 104) % 8 = n % 8 := by omega
  refine parityCheck_congr_columns fun col hc => ?_
  rw [Frame.column_flip _ (by omega) (by omega) hc, Frame.column_flip f h8 (by omega) hc, hcol, hbit,
    BitVec.xor_assoc, BitVec.xor_self, BitVec.xor_zero]

/-! ### What a flip does to the checksum (R136) -/

/-- Two predicates that differ at one place below `m` count the places below `m` one apart. -/
theorem countP_range_of_flip {p q : Nat → Bool} {i m : Nat} (hi : i < m) (hflip : q i = !p i)
    (hsame : ∀ j, j ≠ i → q j = p j) :
    (List.range m).countP q = (List.range m).countP p + 1 ∨
      (List.range m).countP q + 1 = (List.range m).countP p := by
  induction m with
  | zero => exact absurd hi (Nat.not_lt_zero i)
  | succ m ih =>
    simp only [List.range_succ, List.countP_append, List.countP_singleton]
    rcases Nat.lt_succ_iff_lt_or_eq.1 hi with hlt | rfl
    · rw [hsame m hlt.ne']
      have := ih hlt
      omega
    · have hbelow : (List.range i).countP q = (List.range i).countP p :=
        List.countP_congr fun j hj => by rw [hsame j (List.mem_range.1 hj).ne]
      rw [hbelow, hflip]
      cases p i <;> simp

/-- The counted bits are the frame's bits 120 to 215 (R131). -/
theorem bitCount_payload (f : Frame) :
    bitCount (Frame.payload f) = (List.range 96).countP (fun i => f.getLsbD (120 + i)) := by
  rw [← setBits_eq_bitCount, setBits, ← List.countP_eq_length_filter]
  refine List.countP_congr fun i _ => ?_
  have hbyte : (120 + i) / 8 = 14 + i / 8 + 1 := by omega
  have hbit : (120 + i) % 8 = i % 8 := by omega
  rw [Frame.getLsbD_byte f (120 + i), hbyte, hbit, Frame.payload]

/-- Flipping a counted bit changes the count by exactly 1 (R136). -/
theorem bitCount_flip (f : Frame) {n : Nat} (hlo : 120 ≤ n) (hn : n < 216) :
    bitCount (Frame.payload (f ^^^ 1#216 <<< n)) = bitCount (Frame.payload f) + 1 ∨
      bitCount (Frame.payload (f ^^^ 1#216 <<< n)) + 1 = bitCount (Frame.payload f) := by
  rw [bitCount_payload, bitCount_payload]
  refine countP_range_of_flip (i := n - 120) (by omega) ?_ fun j hj => ?_
  · rw [Frame.getLsbD_flip f hn, decide_eq_true (by omega), Bool.xor_true]
  · rw [Frame.getLsbD_flip f hn, decide_eq_false (by omega), Bool.xor_false]

/-- Flipping a bit below `P[14]` leaves the count. -/
theorem bitCount_flip_of_lt (f : Frame) {n : Nat} (hn : n < 120) :
    bitCount (Frame.payload (f ^^^ 1#216 <<< n)) = bitCount (Frame.payload f) :=
  bitCount_congr fun _ _ _ => Frame.payload_flip_of_ne f (by omega) (by omega)

/-- Flipping a bit below `P[13]` leaves the checksum as it is. -/
theorem ckOk_flip_of_lt (f : Frame) {n : Nat} (hn : n < 112) :
    ckOk (Frame.payload (f ^^^ 1#216 <<< n)) = ckOk (Frame.payload f) := by
  rw [Bool.eq_iff_iff, ckOk_iff, ckOk_iff, bitCount_flip_of_lt f (by omega),
    Frame.payload_flip_of_ne f (by omega) (by omega)]

/-- Where the checksum holds, flipping one bit of `P[13]` to `P[25]` fails it: the bit is of the declared
byte or of the counted ones, never of both (R136). -/
theorem ckOk_flip_eq_false {f : Frame} {n : Nat} (hlo : 112 ≤ n) (hn : n < 216)
    (hk : ckOk (Frame.payload f) = true) : ckOk (Frame.payload (f ^^^ 1#216 <<< n)) = false := by
  rw [Bool.eq_false_iff, Ne, ckOk_iff]
  rw [ckOk_iff] at hk
  by_cases hdecl : n < 120
  · rw [bitCount_flip_of_lt f hdecl, ← hk, BitVec.toNat_inj, Frame.payload_flip f hn,
      if_pos (by omega)]
    exact xor_twoPow_ne _ n
  · rw [Frame.payload_flip_of_ne f hn (by omega), hk]
    have hcount := bitCount_flip f (Nat.le_of_not_lt hdecl) hn
    omega

/-- Settles O48: the flips cancel in their column; the first is below `P[13]`, so the checksum sees the
second alone. -/
theorem mirroredFlipIsCaughtByTheChecksum : Obligations.MirroredFlipIsCaughtByTheChecksum :=
  fun f n h8 hn => ⟨parityCheck_mirrored_flip f h8 hn, fun hk =>
    ckOk_flip_eq_false (by omega) (by omega) ((ckOk_flip_of_lt f hn).trans hk)⟩

end Sys2Proof.Machine
end

section
/-! PROOFS. The family of 41_checksum_validator.md: the count and the verdict after one counted bit is
flipped. -/

namespace Sys2Proof.Machine

/-- Settles O47: the count moves by exactly 1 while the declared byte `P[13]` stays, so the two no longer
agree (R136 law 1). -/
theorem singleBitFlipFailsChecksum : Obligations.SingleBitFlipFailsChecksum :=
  fun f _ hlo hn hk => ⟨ckOk_flip_eq_false (by omega) hn hk, bitCount_flip f hlo hn⟩

end Sys2Proof.Machine
end

section
/-! PROOFS. The family of 42_bit_field_slicer.md: the outputs of the slicer and the values of the
primitives, as integers and as the battery mask. -/

namespace Sys2Proof.Machine

/-- The battery is good where the bit of `BATT_MASK` is clear (R145). -/
theorem xBatteryOk_iff_mask (P : Payload) : xBatteryOk P = true ↔ P 25 &&& Config.battMask = 0#8 := by
  rw [xBatteryOk, bit7, Bool.not_eq_true', bne_eq_false_iff_eq]

/-- Settles O7: an output that is a nibble, or a nibble above a byte, is taken as an integer; the battery
flag is its mask, and the sign is the nonzero low nibble of byte 25. -/
theorem slicerOutputs : Obligations.SlicerOutputs := fun P =>
  ⟨rfl, hinib_toNat P 17, xWindGust_toNat P, xBatteryOk_iff_mask P,
    by rw [xTempNeg_eq, decide_eq_true_iff]⟩

/-- Settles O9: a nibble is a remainder or a quotient by 16, bit 7 a comparison with 128, the decimal
combiner exact in 11 bits, and the bit count one over the bits that are 1. -/
theorem primitiveValues : Obligations.PrimitiveValues :=
  ⟨fun P k _ => ⟨rfl, lonib_toNat P k, hinib_toNat P k, by rw [bit7_eq, decide_eq_true_iff]⟩,
    bcd3Word_toNat, fun b => (popcnt8_eq_countP b).trans List.countP_eq_length_filter⟩

end Sys2Proof.Machine
end

section
/-! PROOFS. The family of 43_bcd_nibble_extractor.md: the decimal outputs, and the physical values the
fields of a reading stand for. -/

namespace Sys2Proof.Machine

/-- The sign nibble decides the sign, and the negation is exact in 12 bits (R163, R146). -/
theorem xTempTenths_toInt (P : Payload) :
    (xTempTenths P).toInt =
      if (P 25).toNat % 16 ≠ 0 then -((xTempMag P).toNat : Int) else (xTempMag P).toNat := by
  rw [xTempTenths, signedTenths_toInt, xTempNeg_eq]
  simp only [decide_eq_true_eq]

/-- Settles O8: three outputs are the decimal combiner on a byte and the next one's low nibble, humidity is
its two digits, and the signed temperature is the magnitude under the sign nibble. -/
theorem decimalOutputs : Obligations.DecimalOutputs := fun P =>
  ⟨bcd3Word_bytes_toNat P 20 21, xTempTenths_toInt P, xHumidity_toNat P, bcd3Word_bytes_toNat P 18 19,
    bcd3Word_bytes_toNat P 23 24⟩

/-- The scale `TENTH` divides by 10 (R7). -/
theorem mul_tenth (q : ℚ) : q * Config.tenth = q / 10 := mul_one_div q 10

/-- The port `temp_tenths` is read as `temperature_tenths` (R38, R163), and `TENTH` scales it (R166). -/
theorem WeatherReading.temperatureCelsius_eq (r : WeatherReading) :
    r.temperatureCelsius = (r.temperatureTenths : ℚ) / 10 := by
  have tenths : r.tempTenths.toInt = r.temperatureTenths := signedTenths_toInt r.tempNeg r.tempMag
  rw [temperatureCelsius, tenths, mul_tenth]

/-- Settles O52: the fields in tenths are divided by 10, the temperature with its sign; humidity stands for
itself, and the direction is scaled by `DIR_STEP`. -/
theorem physicalValues : Obligations.PhysicalValues := fun r =>
  ⟨r.temperatureCelsius_eq, rfl, (mul_div_assoc ..).symm, mul_tenth _, mul_tenth _, mul_tenth _⟩

end Sys2Proof.Machine
end

section
/-! PROOFS. The family of 44_frame_decoder_orchestrator.md: what each operation of an edge writes, which
one an edge performs, the block as a fold over the edges' inputs, and the invariant operation by
operation. -/

namespace Sys2Proof.Machine

/-! ### The invariant, operation by operation (R192) -/

theorem Block.atReset_inv : Block.atReset.Inv := ⟨Block.atReset_wf, rfl⟩

/-- Settles O41: the block after reset is the one block the invariant allows in `Idle`. -/
theorem resetHasTheInvariant : Obligations.ResetHasTheInvariant := Block.atReset_inv

theorem Block.loaded_inv (f : Frame) : (Block.loaded f).Inv :=
  ⟨Block.loaded_wf f, rfl, rfl, rfl, rfl⟩

/-- A column's number is exact in the 4 bits of `ERR_COL` (R30). -/
theorem errCol_toNat {col : Nat} (h : col < 13) : (BitVec.ofNat 4 col).toNat = col := by
  rw [BitVec.toNat_ofNat, Nat.mod_eq_of_lt (by omega)]

section
variable {b : Block}

theorem Block.Inv.fb_wf (h : b.Inv) : b.fb.wf = true := h.1

/-- The parity check has passed in `ParityChecked` and `ChecksumChecked`. -/
theorem Block.Inv.parity_ok (h : b.Inv) (hq : b.seq ∈ [SeqState.parityChecked, .checksumChecked]) :
    parityCheck b.payload = .ok := by
  obtain ⟨-, hs⟩ := h
  cases e : b.seq <;> simp only [e] at hs
  case parityChecked => obtain ⟨-, -, -, -, hok⟩ := hs; exact hok
  case checksumChecked => obtain ⟨-, -, -, -, hok, -⟩ := hs; exact hok
  all_goals simp [e] at hq

/-- `PARCHK` on the registers that `LOAD` cleared. -/
theorem Block.Inv.parchk (h : b.Inv) (hq : b.seq = .start) : b.parchk.Inv := by
  obtain ⟨hexp, hact⟩ := h.counts_eq_zero (by simp [hq])
  have hread := h.reading_eq_zero (by simp [hq])
  rcases b.parchk_cases with ⟨hok, e⟩ | ⟨col, hc, hfail, e⟩ <;> rw [e]
  · exact ⟨h.fb_wf, h.errCol_eq_zero (by simp [hq]), hexp, hact, hread, hok⟩
  · have hcol := errCol_toNat hc
    exact ⟨h.fb_wf, hexp, hact, hread, hcol.trans_le (Nat.le_of_lt_succ hc), hfail.trans (by rw [hcol])⟩

/-- `CKSUM` after the parity check has passed. -/
theorem Block.Inv.cksum (h : b.Inv) (hq : b.seq = .parityChecked) : b.cksum.Inv := by
  have hcol := h.errCol_eq_zero (by simp [hq])
  have hread := h.reading_eq_zero (by simp [hq])
  have hpar := h.parity_ok (by simp [hq])
  rcases b.cksum_cases with ⟨hok, e⟩ | ⟨-, hne, e⟩ <;> rw [e]
  · exact ⟨h.fb_wf, hcol, rfl, rfl, hread, hpar, hok⟩
  · exact ⟨h.fb_wf, hcol, rfl, rfl, hne, hread, hpar⟩

/-- `EXTRACT` after both checks have passed. -/
theorem Block.Inv.extract (h : b.Inv) (hq : b.seq = .checksumChecked) : b.extract.Inv := by
  have hok := h.ckOk_eq_true (by simp [hq])
  obtain ⟨hexp, hact⟩ := h.counts_eq (by simp [hq])
  exact ⟨h.fb_wf, h.errCol_eq_zero (by simp [hq]), hexp, hact.trans (ckActualW_eq_of_ckOk hok), rfl,
    h.parity_ok (by simp [hq]), hok⟩

end

/-- Settles O40: each of the six operations of an edge keeps the invariant in the states that select it. -/
theorem stepKeepsTheInvariant : Obligations.StepKeepsTheInvariant := by
  intro s t h ht
  rcases step_cases s with ⟨-, e⟩ |
    ⟨-, ⟨-, -, e⟩ | ⟨-, -, e⟩ | ⟨hq, e⟩ | ⟨hq, e⟩ | ⟨hq, e⟩⟩ <;>
    simp only [step_next_unique ht e, State.advance_block, State.setBlock_block]
  · exact Block.atReset_inv
  · exact Block.loaded_inv _
  · exact h
  · exact h.parchk hq
  · exact h.cksum hq
  · exact h.extract hq

/-! ### `LOAD` and `HOLD` (R181, R183) -/

theorem Block.loaded_resultsCleared (f : Frame) : (Block.loaded f).ResultsCleared :=
  ⟨rfl, rfl, rfl, rfl, rfl, rfl, rfl, rfl, rfl, rfl, rfl, rfl⟩

theorem State.outsideSame_setBlock (s : State) (b : Block) : s.OutsideSame (s.setBlock b) :=
  ⟨rfl, rfl, rfl⟩

/-- Settles O2: both rows put the loaded block in place, whose buffer is the copy of the frame. -/
theorem loadCopiesFrameAndClears : Obligations.LoadCopiesFrameAndClears := by
  intro src frame i s hi _
  have hexec : exec i s = .next (s.setBlock (Block.loaded frame)) := by
    rcases hi with rfl | rfl
    · exact exec_loadIdle s frame
    · exact exec_loadTerminal s src frame
  refine ⟨_, hexec, ?_⟩
  simp only [State.setBlock_block, Block.loaded_fb, Memory.ofFrame_read]
  exact ⟨fun a _ => rfl, fun a ha => Frame.byte_out ha, Block.loaded_resultsCleared frame,
    Block.loaded_seq frame, State.outsideSame_setBlock s _⟩

/-- Settles O3: both rows answer the state itself, and a resting state selects one of them. -/
theorem holdWritesNothing : Obligations.HoldWritesNothing := fun src s hrest =>
  ⟨exec_holdIdle s, exec_holdTerminal s src,
    fun hrst hstart => step_hold hrst hstart (restingState_of_mem hrest)⟩

/-! ### `PARCHK` (R184, R185) -/

theorem Block.parchk_of_ok {b : Block} (h : parityCheck b.payload = .ok) :
    b.parchk = { b with seq := .parityChecked } := by
  rw [Block.parchk, h]

theorem Block.parchk_of_fail {b : Block} {col : Nat} (h : parityCheck b.payload = .fail col) :
    b.parchk = { b with errCol := BitVec.ofNat 4 col, seq := .parityFailed } := by
  rw [Block.parchk, h]
  rfl

/-- Settles O4: the parity check finds no bad column or the first one. -/
theorem parchkVerdict : Obligations.ParchkVerdict := by
  intro start s _
  rw [exec_parchk]
  refine ⟨fun hall => ?_, fun col hbad => ?_⟩
  · rw [Block.parchk_of_ok ((parityCheck_ok_iff _).2 hall), State.setBlock]
  · rw [Block.parchk_of_fail ((parityCheck_fail_iff _ _).2 hbad), State.setBlock]

/-- Settles O22: `PARCHK` writes `ERR_COL` and `STATE` alone, and in `Start` the other result registers
are 0. -/
theorem parityErrorComesFirst : Obligations.ParityErrorComesFirst := by
  intro start s col h hq hbad
  obtain ⟨hexp, hact⟩ := h.counts_eq_zero (by simp [hq])
  refine ⟨_, (parchkVerdict start s hq).2 col hbad, rfl, errCol_toNat hbad.1, hexp, hact,
    h.reading_eq_zero (by simp [hq]), rfl⟩

/-! ### `CKSUM` and `EXTRACT` (R186, R190) -/

/-- The count in 8 bits, counted bit by bit (R131). -/
theorem ckActualW_eq_setBits (P : Payload) : ckActualW P = BitVec.ofNat 8 (setBits P) := by
  rw [setBits_eq_bitCount, ckActualW]

/-- `CKSUM` writes the declared byte and the count, and `STATE` by their comparison. -/
theorem Block.cksum_eq (b : Block) :
    b.cksum = { b with ckExpected := b.payload 13, ckActual := ckActualW b.payload,
                       seq := if ckOk b.payload then .checksumChecked else .checksumFailed } := by
  rcases b.cksum_cases with ⟨hok, e⟩ | ⟨hok, -, e⟩
  · rw [e, ckActualW_eq_of_ckOk hok, if_pos hok]
  · rw [e, hok, if_neg Bool.false_ne_true]

/-- Settles O5: `STATE` tells whether the declared byte is the number of 1 bits. -/
theorem cksumVerdict : Obligations.CksumVerdict := by
  intro start s _
  rw [exec_cksum, Block.cksum_eq, ckActualW_eq_setBits]
  refine ⟨fun heq => ?_, fun hne => ?_⟩
  · rw [if_pos ((ckOk_iff_setBits _).2 heq), State.setBlock]
  · rw [if_neg (mt (ckOk_iff_setBits _).1 hne), State.setBlock]

/-- Settles O6: the reading that the extractors compute has the fields of the field table. -/
theorem extractWritesTheReading : Obligations.ExtractWritesTheReading := fun start s _ =>
  ⟨readingOf s.block.payload, readingOf_isOf _, exec_extract s start⟩

/-! ### The function `decode` (R194) -/

/-- Settles O14: the two checks decide the case, by the columns and by the number of 1 bits. -/
theorem decodeFunctionByCases : Obligations.DecodeFunctionByCases := by
  refine ⟨fun P => ⟨fun col hbad => ?_, fun hall => ?_⟩, fun _ => rfl⟩
  · exact decodePayload_of_parity_fail ((parityCheck_fail_iff P col).2 hbad)
  · have hpar := (parityCheck_ok_iff P).2 hall
    rw [ne_eq, ← ckOk_iff_setBits, ← ckActualW_eq_setBits]
    exact ⟨fun hne => decodePayload_of_checksum_mismatch hpar (Bool.eq_false_iff.2 hne),
      fun hok => ⟨_, decodePayload_of_checks_ok hpar hok, readingOf_isOf P⟩⟩

/-! ### Which operation an edge performs (R180) -/

/-- Settles O23: the step is the meaning of the decoded instruction, and then the edge passes. -/
theorem stepRunsTheDecodedInstruction : Obligations.StepRunsTheDecodedInstruction := by
  intro s t i rest hdec hexec
  rw [step_of_decode hdec, hexec, afterEdge, State.advance]

/-- The instruction that the ports and `STATE` select (R180). -/
def State.selected (s : State) : Instr :=
  if s.pins.rst then .reset s.pins.start s.block.seq.code
  else match s.block.seq with
    | .start => .parchk s.pins.start
    | .parityChecked => .cksum s.pins.start
    | .checksumChecked => .extract s.pins.start
    | .idle => if s.pins.start then .loadIdle s.pins.frameIn else .holdIdle
    | q => if s.pins.start then .loadTerminal q s.pins.frameIn else .holdTerminal q

/-- What an edge with the inputs `p` makes of the block (R180). -/
def Block.edge (b : Block) (p : Inputs) : Block :=
  if p.rst then Block.atReset
  else match b.seq with
    | .start => b.parchk
    | .parityChecked => b.cksum
    | .checksumChecked => b.extract
    | _ => if p.start then Block.loaded p.frameIn else b

section
variable {b : Block} {p : Inputs}

theorem Block.edge_reset (h : p.rst = true) : b.edge p = Block.atReset := by
  rw [Block.edge, if_pos h]

theorem Block.edge_of_resting (h : p.rst = false) (hr : restingState b.seq = true) :
    b.edge p = if p.start then Block.loaded p.frameIn else b := by
  cases hq : b.seq <;> simp [restingState, busyOf, hq] at hr <;> simp [Block.edge, h, hq]

theorem Block.edge_parchk (h : p.rst = false) (hq : b.seq = .start) : b.edge p = b.parchk := by
  simp [Block.edge, h, hq]

theorem Block.edge_cksum (h : p.rst = false) (hq : b.seq = .parityChecked) : b.edge p = b.cksum := by
  simp [Block.edge, h, hq]

theorem Block.edge_extract (h : p.rst = false) (hq : b.seq = .checksumChecked) :
    b.edge p = b.extract := by
  simp [Block.edge, h, hq]

end

@[simp] theorem State.setBlock_self (s : State) : s.setBlock s.block = s := rfl

/-- A step is the edge's transition of the block, and then the edge passes. -/
theorem step_eq_edge (s : State) : step s = .next (s.setBlock (s.block.edge s.pins)).advance := by
  rcases step_cases s with ⟨hrst, e⟩ |
    ⟨hrst, ⟨hr, hs, e⟩ | ⟨hr, hs, e⟩ | ⟨hq, e⟩ | ⟨hq, e⟩ | ⟨hq, e⟩⟩ <;> rw [e]
  · rw [Block.edge_reset hrst]
  · rw [Block.edge_of_resting hrst hr, if_pos hs]
  · rw [Block.edge_of_resting hrst hr, if_neg (Bool.eq_false_iff.1 hs), State.setBlock_self]
  · rw [Block.edge_parchk hrst hq]
  · rw [Block.edge_cksum hrst hq]
  · rw [Block.edge_extract hrst hq]

/-- The selected instruction makes the edge's transition of the block. -/
theorem exec_selected (s : State) :
    exec s.selected s = .next (s.setBlock (s.block.edge s.pins)) := by
  rw [State.selected, Block.edge]
  cases s.pins.rst with
  | true => simp
  | false =>
    cases s.block.seq with
    | start | parityChecked | checksumChecked => simp
    | _ => cases s.pins.start <;> simp

/-- Settles O24: the selected instruction, spelled out for each state. -/
theorem stepPerformsTheSelectedOperation : Obligations.StepPerformsTheSelectedOperation := by
  intro s
  refine ⟨s.selected, _, exec_selected s, step_eq_edge s, ?_⟩
  rw [State.selected]
  cases s.block.seq <;> rfl

/-! ### A busy state (R189, R193) -/

section
variable {b : Block} (p : Inputs)

/-- A busy state does not look at `start`. -/
theorem Block.edge_start_of_busy (hb : busyOf b.seq = true) (start : Bool) :
    b.edge { p with start := start } = b.edge p := by
  rcases (busyOf_iff _).1 hb with hq | hq | hq <;> simp only [Block.edge, hq]

/-- A busy state keeps the frame buffer while `rst` is low. -/
theorem Block.edge_fb_of_busy (hb : busyOf b.seq = true) (hrst : p.rst = false) :
    (b.edge p).fb = b.fb := by
  rcases (busyOf_iff _).1 hb with hq | hq | hq
  · rw [Block.edge_parchk hrst hq, Block.parchk_fb]
  · rw [Block.edge_cksum hrst hq, Block.cksum_fb]
  · rw [Block.edge_extract hrst hq, Block.extract_fb]

end

/-- Settles O29: the edge's transition of a busy block does not look at `start`, and with `rst` low `STATE`
alone selects the operation. -/
theorem startIsIgnoredWhileBusy : Obligations.StartIsIgnoredWhileBusy := by
  intro s p start hb
  refine ⟨?_, fun hrst => ⟨(s.setPins p).selected, _, exec_selected _, step_eq_edge _, fun hq => ?_,
    fun hq => ?_, fun hq => ?_, fun a => ?_⟩⟩
  · simp [step_eq_edge, Block.edge_start_of_busy p hb start]
  · simp [State.selected, hrst, hq]
  · simp [State.selected, hrst, hq]
  · simp [State.selected, hrst, hq]
  · exact congrArg (Memory.read · a) (Block.edge_fb_of_busy p hb hrst)

/-- The terminal state of an outcome (R234). -/
def CallOutcome.terminal : CallOutcome → SeqState
  | .decoded _ => .decoded
  | .parityError _ => .parityFailed
  | .checksumError _ _ => .checksumFailed

theorem Block.seq_of_outcome {b : Block} {o : CallOutcome} (h : b.outcome? = some o) :
    b.seq = o.terminal := by
  cases hq : b.seq <;> simp [Block.outcome?, hq] at h <;> rw [← h, CallOutcome.terminal]

/-- Settles O19: the call delivers `decode` of the payload, after as many edges as its outcome takes. -/
theorem callEndsWithinThreeSteps : Obligations.CallEndsWithinThreeSteps := by
  intro s p1 p2 p3 rest hq hi h1 h2 h3
  obtain ⟨t, hrun, ho, -⟩ := State.delivers_of_start hq hi h1 h2 h3
  have hseq := Block.seq_of_outcome ho
  cases hdec : decodePayload s.block.payload <;> rw [hdec] at hrun hseq
  case parityError => exact .inl ⟨t, hrun, hseq⟩
  case checksumError => exact .inr (.inl ⟨t, hrun, hseq⟩)
  case decoded => exact .inr (.inr ⟨t, hrun, hseq⟩)

/-! ### Several edges (R188, R196) -/

/-- After `n` edges for which the host has inputs the block is the fold of the edges over them. -/
theorem run_block {n : Nat} {s : State} (h : n ≤ s.inputs.length) :
    ∃ t, Host.Core.run core n s = .next t ∧ t.block = (s.inputs.take n).foldl Block.edge s.block := by
  induction n generalizing s with
  | zero => exact ⟨s, run_zero s, rfl⟩
  | succ n ih =>
    cases hi : s.inputs with
    | nil => simp [hi] at h
    | cons p rest =>
      obtain ⟨t, hrun, hblock⟩ := ih (s := (s.setBlock (s.block.edge s.pins)).advance)
        (by simpa [hi] using h)
      refine ⟨t, (run_succ (step_eq_edge s) n).trans hrun, hblock.trans ?_⟩
      simp [hi, State.pins_of_inputs hi]

theorem restingState_of_done {q : SeqState} (h : doneOf q = true) : restingState q = true := by
  rcases (doneOf_iff q).1 h with rfl | rfl | rfl <;> rfl

/-- A resting block is held over edges with `rst` and `start` low. -/
theorem Block.foldl_edge_of_resting {b : Block} (hr : restingState b.seq = true) (ps : List Inputs)
    (h : ∀ p ∈ ps, p.rst = false ∧ p.start = false) : ps.foldl Block.edge b = b := by
  induction ps with
  | nil => rfl
  | cons p ps ih =>
    obtain ⟨⟨hrst, hstart⟩, hps⟩ := List.forall_mem_cons.1 h
    rw [List.foldl_cons, Block.edge_of_resting hrst hr, if_neg (Bool.eq_false_iff.1 hstart), ih hps]

/-- Settles O28: a terminal state is a resting one, and every edge holds it. -/
theorem terminalStatesHold : Obligations.TerminalStatesHold := by
  intro n s hdone hn hlow
  obtain ⟨t, hrun, hblock⟩ := run_block hn
  exact ⟨t, hrun, hblock.trans (Block.foldl_edge_of_resting (restingState_of_done hdone) _ hlow)⟩

/-- After an accepted `start` the block is the fold from the loaded frame: the block before it does not
occur (R196). -/
theorem run_block_of_accepted {n : Nat} {s : State} {p : Inputs} {rest : List Inputs}
    (hr : restingState s.block.seq = true) (hi : s.inputs = p :: rest) (hrst : p.rst = false)
    (hstart : p.start = true) (hn : n ≤ rest.length) :
    ∃ t, Host.Core.run core (n + 1) s = .next t ∧
      t.block = (rest.take n).foldl Block.edge (Block.loaded p.frameIn) := by
  obtain ⟨t, hrun, hblock⟩ := run_block (n := n + 1) (s := s) (by simpa [hi] using hn)
  refine ⟨t, hrun, ?_⟩
  rw [hblock, hi, List.take_succ_cons, List.foldl_cons, Block.edge_of_resting hrst hr, if_pos hstart]

/-- Settles O20: both blocks are the one fold from the loaded frame. -/
theorem callForgetsThePast : Obligations.CallForgetsThePast := by
  intro n s1 s2 p rest hr1 hr2 hi1 hi2 hrst hstart hn
  obtain ⟨t1, hrun1, hblock1⟩ := run_block_of_accepted hr1 hi1 hrst hstart hn
  obtain ⟨t2, hrun2, hblock2⟩ := run_block_of_accepted hr2 hi2 hrst hstart hn
  exact ⟨t1, t2, hrun1, hrun2, hblock1.trans hblock2.symm⟩

end Sys2Proof.Machine
end

section
/-! PROOFS. The family of 45_host_interface.md: an outcome stays readable over the edges of a call that are
left when it is there, and what the host's own operations do. -/

namespace Sys2Proof.Machine

/-! ### The call protocol (R217, R218) -/

/-- An outcome stays to be read over edges with `rst` and `start` low (R217, step 6). -/
theorem State.outcome_stays {s : State} {o : CallOutcome} (ho : s.block.outcome? = some o) {n : Nat}
    (hn : n ≤ s.inputs.length) (hlow : ∀ p ∈ s.inputs.take n, p.rst = false ∧ p.start = false) :
    ∃ t, Host.Core.run core n s = .next t ∧ t.block.outcome? = some o := by
  obtain ⟨t, hrun, hblock⟩ := terminalStatesHold n s (Block.done_of_outcome ho) hn hlow
  exact ⟨t, hrun, by rw [hblock, ho]⟩

/-- After its accepting edge a call holds `rst` and `start` low, also over the edges left after `n` more. -/
theorem callInputs_low_after_start {raw x1 x2 x3 : Frame} {rest : List Inputs} {n : Nat} {p : Inputs}
    (hn : n ≤ 3) (hp : p ∈ ((callInputs raw x1 x2 x3 ++ rest).drop (n + 1)).take (3 - n)) :
    p.rst = false ∧ p.start = false := by
  have hfour : n + 1 + (3 - n) = 4 := by omega
  rw [List.take_drop, hfour] at hp
  have hthree : p ∈ [⟨false, false, x1⟩, ⟨false, false, x2⟩, ⟨false, false, x3⟩] :=
    List.mem_of_mem_drop (i := n) hp
  simp only [List.mem_cons, List.not_mem_nil, or_false] at hthree
  rcases hthree with rfl | rfl | rfl <;> exact ⟨rfl, rfl⟩

/-- A run drops its edges' inputs from the host's line. -/
theorem run_inputs {n : Nat} {s t : State} (h : Host.Core.run core n s = .next t) :
    t.inputs = s.inputs.drop n := by
  obtain ⟨u, hrun, hu⟩ := run_answers n s
  cases h.symm.trans hrun
  exact hu

/-- Settles O18: the outcome is there after at most three edges from the accepting one, and stays over
those that are left. -/
theorem callProtocolDelivers : Obligations.CallProtocolDelivers := by
  intro s raw x1 x2 x3 rest hrest hi
  obtain ⟨n, u, hn, hrun, -, ho, -⟩ := callComputesDecode s raw _ _ _ rest hrest hi rfl rfl rfl
  have hn3 : n ≤ 3 := by rw [hn]; split <;> decide
  have hu := run_inputs hrun
  rw [hi] at hu
  have hlen : 3 - n ≤ u.inputs.length := by
    simp only [hu, callInputs, List.length_drop, List.length_append, List.length_cons]
    omega
  obtain ⟨t, hheld, hout⟩ := State.outcome_stays ho hlen
    fun p hp => callInputs_low_after_start hn3 (hu ▸ hp)
  have hfour : n + 1 + (3 - n) = 4 := by omega
  have hall := (run_add hrun (3 - n)).trans hheld
  rw [hfour] at hall
  exact ⟨t, hall, hout, by rw [run_inputs hall, hi]; rfl⟩

/-! ### The host's own operations (R212, R216, R222, R242) -/

/-- The synchronisation check is about the eight least significant bits of the port (R27, R212). -/
theorem hostMayCall_iff (raw : Frame) : hostMayCall raw = true ↔ raw.extractLsb' 0 8 = 0xD4#8 := by
  rw [hostMayCall, beq_iff_eq, Frame.byte]

section
variable {h : HostState}

theorem HostState.interrupt_of_armed (ha : h.armed = true) :
    h.interrupt = { h with packetReady := true } := if_pos ha

theorem HostState.interrupt_of_not_armed (ha : h.armed = false) : h.interrupt = h := by
  rw [HostState.interrupt, ha, if_neg Bool.false_ne_true]

/-- The loop processes where the flag is set and the sensor configured (R222). -/
theorem HostState.poll_of_ready (hr : h.packetReady = true) :
    h.poll true = (true, { h with packetReady := false, armed := true }) := by
  rw [HostState.poll, hr]
  rfl

end

theorem HostState.interrupt_interrupt (h : HostState) : h.interrupt.interrupt = h.interrupt := by
  rcases h.interrupt_cases with ⟨ha, e⟩ | ⟨-, e⟩
  · rw [e]
    exact HostState.interrupt_of_armed ha
  · rw [e, e]

/-- An interrupt sets the flag at most: the receiver stays as it is. -/
theorem HostState.interrupt_armed (h : HostState) : h.interrupt.armed = h.armed := by
  rcases h.interrupt_cases with ⟨-, e⟩ | ⟨-, e⟩ <;> rw [e]

theorem HostState.interrupt_sensorFilter (h : HostState) :
    h.interrupt.sensorFilter = h.sensorFilter := by
  rcases h.interrupt_cases with ⟨-, e⟩ | ⟨-, e⟩ <;> rw [e]

/-- A packet that arrives at an armed receiver is seen at the next look (R216, R242). -/
theorem HostState.poll_interrupt_of_armed {h : HostState} (ha : h.armed = true) :
    (h.interrupt.poll true).1 = true := by
  rw [HostState.interrupt_of_armed ha, HostState.poll_of_ready rfl]

/-- Settles O53: the two outcomes of an arriving packet, and the two of a look of the polling loop. -/
theorem hostDutiesAndFlag : Obligations.HostDutiesAndFlag := by
  refine ⟨hostMayCall_iff, fun h => ⟨rfl, rfl, rfl⟩, fun h => ⟨fun ha => ?_,
    HostState.interrupt_of_not_armed, h.interrupt_interrupt, h.interrupt_armed,
    h.interrupt_sensorFilter⟩, fun h c => ?_⟩
  · rw [HostState.interrupt_of_armed ha]
  · rcases h.poll_cases c with ⟨hr, rfl, e⟩ | ⟨hno, e⟩ <;> rw [e]
    · exact ⟨by rw [hr]; rfl, fun _ => ⟨rfl, rfl, HostState.poll_interrupt_of_armed rfl⟩,
        fun hf => absurd hf.symm Bool.false_ne_true, rfl⟩
    · exact ⟨hno.symm, fun ht => absurd ht Bool.false_ne_true, fun _ => rfl, rfl⟩

end Sys2Proof.Machine
end

namespace Sys2Proof.Machine

/-! ### Which operation enters an outcome (R234, R231) -/

@[simp] theorem Block.atReset_seq : Block.atReset.seq = .idle := rfl
@[simp] theorem Block.extract_seq (b : Block) : b.extract.seq = .decoded := rfl

/-- Settles O33: reset, load and hold enter no outcome, each check enters its own error or a busy state,
and a look at an output leaves `STATE` alone. -/
theorem onlyTheChecksRaise : Obligations.OnlyTheChecksRaise := by
  intro i s t h
  rcases exec_cases i s with ⟨b, e, hop⟩ | ⟨v, e, -⟩
  · cases e.symm.trans h
    rw [State.setBlock_block]
    rcases hop with ⟨-, rfl⟩ | ⟨-, f, rfl⟩ | ⟨-, rfl⟩ | ⟨hm, rfl⟩ | ⟨hm, rfl⟩ | ⟨hm, rfl⟩ | ⟨hm, -⟩
    · simp
    · simp
    · exact ⟨absurd, absurd, absurd⟩
    · rcases s.block.parchk_seq_cases with hq | hq <;> simp [hm, hq]
    · rcases s.block.cksum_seq_cases with hq | hq <;> simp [hm, hq]
    · simp [hm]
    · simp [hm]
  · cases e.symm.trans h
    exact ⟨absurd, absurd, absurd⟩

end Sys2Proof.Machine

section
/-! PROOFS. The family of 70_reset_and_hazards.md: what `RESET` leaves in the block and on its ports, and that
a held `rst` keeps it. -/

namespace Sys2Proof.Machine

/-! ### `RESET` (R260) -/

/-- The buffer of the reset block lists no byte, so every byte reads as the reset value. -/
@[simp] theorem Block.atReset_fb_read (a : Nat) : Block.atReset.fb.read a = 0#8 := rfl

theorem Block.atReset_resultsCleared : Block.atReset.ResultsCleared :=
  ⟨rfl, rfl, rfl, rfl, rfl, rfl, rfl, rfl, rfl, rfl, rfl, rfl⟩

/-- The signed temperature port is a wire from `temp_mag` and `temp_neg`, so cleared registers show 0. -/
theorem Block.ResultsCleared.tempTenths {b : Block} (h : b.ResultsCleared) :
    b.outputs.tempTenths = 0#12 := by
  obtain ⟨-, -, -, -, hmag, hneg, -⟩ := h
  rw [Block.outputs, WeatherReading.tempTenths, hmag, hneg]
  rfl

/-- Settles O1: the instruction puts the reset block in place, and the ports are functions of it. -/
theorem resetZeroesEveryRegister : Obligations.ResetZeroesEveryRegister := fun start code s =>
  ⟨s.setBlock Block.atReset, exec_reset s start code, Block.atReset_seq, Block.atReset_fb_read,
    Block.atReset_resultsCleared, rfl, rfl, rfl, rfl, rfl, Block.atReset_resultsCleared.tempTenths,
    State.outsideSame_setBlock s _⟩

/-! ### A held reset (R261) -/

/-- An edge with `rst` high forgets every edge before it. -/
theorem Block.foldl_edge_concat_reset (b : Block) (ps : List Inputs) {p : Inputs} (h : p.rst = true) :
    (ps ++ [p]).foldl Block.edge b = Block.atReset := by
  rw [List.foldl_concat, Block.edge_reset h]

/-- Settles O27: the last of the edges has `rst` high, and it alone gives the reset block. -/
theorem heldResetKeepsResetValues : Obligations.HeldResetKeepsResetValues := by
  intro n s hn hrst
  obtain ⟨t, hrun, hblock⟩ := run_block hn
  have hlast : s.inputs.take (n + 1) = s.inputs.take n ++ [s.inputs[n]] :=
    (List.take_append_getElem hn).symm
  rw [hlast] at hrst hblock
  exact ⟨t, hrun, hblock.trans (Block.foldl_edge_concat_reset _ _ (hrst _ List.mem_concat_self))⟩

end Sys2Proof.Machine
end
